-- ==== Sys2Proof/Word.lean ====
section
/-! DEFINITION. The value types of the engine: words, bytes and eight words by index or by name (spec/00_scope.md R8, spec/10_state.md R14, R21). -/

namespace Sys2Proof

/-- A word: an unsigned 32-bit integer, bit 0 the least significant (R8). -/
abbrev Word := BitVec 32

/-- A byte: an unsigned 8-bit integer (R8). -/
abbrev Byte := BitVec 8

/-- H[0..7]: eight words by index (R15). -/
abbrev HashState := Vector Word 8

/-- The eight working variables a..h (R21). -/
structure Working where
  a : Word
  b : Word
  c : Word
  d : Word
  e : Word
  f : Word
  g : Word
  h : Word
deriving DecidableEq, Repr, Inhabited

end Sys2Proof
end

