-- ==== Sys2Proof/Syntax.lean ====
section
/-! DEFINITION. The commands of the engine, one constructor per row of spec/opcode_table.json (spec/30_encoding.md R53). -/

namespace Sys2Proof

/-- A command. Its only operand is UPDATE's byte count LEN (R55). -/
inductive Instr where
  /-- INIT, OP 0x1 (R63). -/
  | init
  /-- UPDATE, OP 0x2, with the number of payload bytes (R89). -/
  | update (len : Nat)
  /-- FINAL, OP 0x3 (R94). -/
  | final
  /-- SIZE, OP 0x4 (R65). -/
  | size
deriving DecidableEq, Repr

end Sys2Proof
end

