-- ==== Sys2Proof/WellFormed.lean ====
section
/-! DEFINITION. Which terms of Instr the command word can carry: LEN is a 24-bit field (spec/30_encoding.md R52, R54). -/

namespace Sys2Proof

/-- One more than the largest LEN: 2^24 (R7 LEN_W, R52). -/
def lenLimit : Nat := 2 ^ 24

/-- The check: UPDATE's LEN fits the field, "0 ≤ n < 2^24" (R58). The other commands have no operand. -/
def Instr.wellFormed : Instr → Bool
  | .init => true
  | .update len => decide (len < lenLimit)
  | .final => true
  | .size => true

/-- A command that some command word carries. -/
abbrev Instr.WellFormed (i : Instr) : Prop := i.wellFormed = true

end Sys2Proof
end

