-- ==== Sys2Proof/Decode.lean ====
section
/-! DEFINITION. The command word: its fields, decode (total on all 2^32 words, R57) and encode (R58).
The channel moves one whole 32-bit word per transfer (spec/20_memory.md R42), so there is no byte order to lay out. -/

namespace Sys2Proof

/-- Why a command word is illegal: the three cases of R56. -/
inductive Illegal where
  /-- R56(a): OP is 0x0 or 0x5 to 0xF. -/
  | reservedOpcode
  /-- R56(b): RSV is not 0. -/
  | reservedBits
  /-- R56(c): LEN is not 0 on INIT, FINAL or SIZE. -/
  | nonzeroLength
deriving DecidableEq, Repr

/-- OP, bits 3:0 (R52). -/
def opField (w : Word) : BitVec 4 := w.extractLsb' 0 4

/-- RSV, bits 7:4 (R52). -/
def rsvField (w : Word) : BitVec 4 := w.extractLsb' 4 4

/-- LEN, bits 31:8 (R52). -/
def lenField (w : Word) : BitVec 24 := w.extractLsb' 8 24

/-- The length operand: "unsigned, unscaled", a byte count (R54). -/
def lenOperand (w : Word) : Nat := (lenField w).toNat

/-- A command that takes no length: legal when LEN is 0, R56(c) otherwise. -/
def requireNoLength (w : Word) (i : Instr) : Except Illegal Instr :=
  if lenField w = 0 then .ok i else .error .nonzeroLength

/-- R57, with the reason of R56 in place of the one answer Illegal. -/
def decode (w : Word) : Except Illegal Instr :=
  if rsvField w ≠ 0 then .error .reservedBits
  else if opField w = 0x1 then requireNoLength w .init
  else if opField w = 0x2 then .ok (.update (lenOperand w))
  else if opField w = 0x3 then requireNoLength w .final
  else if opField w = 0x4 then requireNoLength w .size
  else .error .reservedOpcode

/-- The opcode of a command (R53). -/
def opcode : Instr → BitVec 4
  | .init => 0x1
  | .update _ => 0x2
  | .final => 0x3
  | .size => 0x4

/-- What a command's LEN field holds (R52): the byte count of UPDATE, 0 otherwise. -/
def lenOf : Instr → Nat
  | .init => 0
  | .update len => len
  | .final => 0
  | .size => 0

/-- R58: (n << 8) | OP, with RSV = 0; n is 0 but for UPDATE. -/
def encode (i : Instr) : Word := BitVec.ofNat 32 (lenOf i) <<< 8 ||| (opcode i).zeroExtend 32

/-- The instruction decode reads from the table's bits: every row is one 32-bit word (R51), so w is that word. -/
def decodeTableWord (nbits w : Nat) : Option Instr :=
  (decode (BitVec.ofNat 32 (w % 2 ^ nbits))).toOption

end Sys2Proof
end

