-- ==== Sys2Proof/Machine/Operands.lean ====
section
/-! DEFINITION. Word operators and the byte/word conversions (spec/00_scope.md R9, R10). Every conversion is big-endian
(spec/20_memory.md R37–R40). -/

namespace Sys2Proof.Machine

/-- SHR(x, n), logical right shift: "Zeros enter at bit 31" (R9). -/
def shr (x : Word) (n : Nat) : Word := x >>> n

/-- SHL(x, n), left shift modulo 2^32: "Zeros enter at bit 0" (R9). -/
def shl (x : Word) (n : Nat) : Word := x <<< n

/-- ROTR(x, n) = (x >> n) | (x << (32 − n)), for 1 ≤ n ≤ 31 (R9). -/
def rotr (x : Word) (n : Nat) : Word := shr x n ||| shl x (32 - n)

/-- BE32(b0, b1, b2, b3) = b0 ‖ b1 ‖ b2 ‖ b3 (R10). -/
def be32 (b0 b1 b2 b3 : Byte) : Word := b0 ++ b1 ++ b2 ++ b3

/-- BYTES_BE(w) = (w[31:24], w[23:16], w[15:8], w[7:0]), most significant byte first (R10). -/
def bytesBE (w : Word) : List Byte :=
  [w.extractLsb' 24 8, w.extractLsb' 16 8, w.extractLsb' 8 8, w.extractLsb' 0 8]

/-- Bytes read as big-endian words, four at a time (R37). -/
def wordsBE : List Byte → List Word
  | b0 :: b1 :: b2 :: b3 :: rest => be32 b0 b1 b2 b3 :: wordsBE rest
  | _ => []

/-- Eight words serialised, "each word big-endian", H[0] first (R39). -/
def serialise (hash : HashState) : List Byte := hash.toList.flatMap bytesBE

end Sys2Proof.Machine
end

