-- ==== Sys2Proof/Machine/Compression.lean ====
section
/-! DEFINITION. The Compression Core: the bitwise functions, the message scheduler, the rounds and Compress
(spec/41_compression.md R71–R86). -/

namespace Sys2Proof.Machine

/-- σ0, applied to W[i−15] (R71). -/
def smallSigma0 (x : Word) : Word := rotr x 7 ^^^ rotr x 18 ^^^ shr x 3

/-- σ1, applied to W[i−2] (R72). -/
def smallSigma1 (x : Word) : Word := rotr x 17 ^^^ rotr x 19 ^^^ shr x 10

/-- Σ0, applied to working variable a (R73). -/
def bigSigma0 (x : Word) : Word := rotr x 2 ^^^ rotr x 13 ^^^ rotr x 22

/-- Σ1, applied to working variable e (R74). -/
def bigSigma1 (x : Word) : Word := rotr x 6 ^^^ rotr x 11 ^^^ rotr x 25

/-- Ch, "choose" (R75). -/
def ch (x y z : Word) : Word := (x &&& y) ^^^ (~~~x &&& z)

/-- Maj, "majority" (R76). -/
def maj (x y z : Word) : Word := (x &&& y) ^^^ (x &&& z) ^^^ (y &&& z)

/-- The recurrence of R79 for i = w.length: the next word of the schedule w = W[0..i−1]. -/
def nextWord (w : List Word) : Word :=
  let i := w.length
  smallSigma1 (w.getD (i - 2) 0) + w.getD (i - 7) 0 + smallSigma0 (w.getD (i - 15) 0) + w.getD (i - 16) 0

/-- n more words of the schedule, "in increasing i" (R79). -/
def expand : Nat → List Word → List Word
  | 0, w => w
  | n + 1, w => expand n (w ++ [nextWord w])

/-- W[0..63] of a block: 16 words parsed big-endian (R78), 48 by the recurrence (R79). -/
def schedule (block : List Byte) : List Word := expand 48 (wordsBE block)

/-- One round with constant k and schedule word w; "All right-hand sides read the values before the round" (R81). -/
def roundStep (v : Working) (k w : Word) : Working :=
  let t1 := v.h + bigSigma1 v.e + ch v.e v.f v.g + k + w
  let t2 := bigSigma0 v.a + maj v.a v.b v.c
  { a := t1 + t2, b := v.a, c := v.b, d := v.c, e := v.d + t1, f := v.e, g := v.f, h := v.g }

/-- The first n rounds, t = 0, 1, …, n−1 in this order, over the schedule w (R82). -/
def rounds (w : List Word) : Nat → Working → Working
  | 0, v => v
  | n + 1, v => roundStep (rounds w n v) (roundConstant n) (w.getD n 0)

/-- The working variables start as H[0], …, H[7] (R82). -/
def startWorking (hash : HashState) : Working where
  a := hash[0]
  b := hash[1]
  c := hash[2]
  d := hash[3]
  e := hash[4]
  f := hash[5]
  g := hash[6]
  h := hash[7]

/-- Feed-forward: each output word is the input word plus the working variable (R83). -/
def feedForward (hash : HashState) (v : Working) : HashState :=
  #v[hash[0] + v.a, hash[1] + v.b, hash[2] + v.c, hash[3] + v.d,
    hash[4] + v.e, hash[5] + v.f, hash[6] + v.g, hash[7] + v.h]

/-- Compress(H, B), for the 64 bytes of one block (R83). It is irreducible so that no proof runs the 64 rounds by accident;
`unfold compress` and the kernel still see its body. -/
@[irreducible] def compress (hash : HashState) (block : List Byte) : HashState :=
  feedForward hash (rounds (schedule block) 64 (startWorking hash))

/-- The 16-word circular window of R80 at round t: for t ≥ 16, W[t] goes into slot t mod 16, the slot of W[t−16]. -/
def slideWindow (slots : List Word) (t : Nat) : List Word :=
  if t < 16 then slots
  else
    let slot (i : Nat) := slots.getD (i % 16) 0
    slots.set (t % 16) (smallSigma1 (slot (t - 2)) + slot (t - 7) + smallSigma0 (slot (t - 15)) + slot (t - 16))

/-- n rounds over the window, computing W[t] "just before round" t (R80): the window and the working variables. -/
def windowRounds (slots : List Word) : Nat → Working → List Word × Working
  | 0, v => (slots, v)
  | n + 1, v =>
    let p := windowRounds slots n v
    let slots' := slideWindow p.1 n
    (slots', roundStep p.2 (roundConstant n) (slots'.getD (n % 16) 0))

/-- Compress with a 16-word window in place of the 64-word schedule: the admitted strategy of R80. -/
def compressWindow (hash : HashState) (block : List Byte) : HashState :=
  feedForward hash (windowRounds (wordsBE block) 64 (startWorking hash)).2

end Sys2Proof.Machine
end

