-- ==== Sys2Proof/Machine/Flags.lean ====
section
/-! DEFINITION. The engine has no flags or condition codes (spec/10_state.md R27). Its only carry is inside the byte
counter: Add64 (spec/42_update.md R87) and the bit length taken from the counter (spec/43_final.md R98). -/

namespace Sys2Proof.Machine

/-- R87: add n to the counter (cH, cL) through a 33-bit sum, carrying into cH modulo 2^32. -/
def add64 (cH cL n : Word) : Word × Word :=
  let s : BitVec 33 := cL.zeroExtend 33 + n.zeroExtend 33
  (cH + (s.extractLsb' 32 1).zeroExtend 32, s.extractLsb' 0 32)

/-- C = cH ‖ cL, the 64-bit count (R11, R16). -/
def count64 (cH cL : Word) : BitVec 64 := cH ++ cL

/-- R98: the bit length (Lhi, Llo), the byte count shifted left by 3; the top three bits of cH are discarded. -/
def bitLength (cH cL : Word) : Word × Word := (shl cH 3 ||| shr cL 29, shl cL 3)

/-- R99: the length field of the final block, Lhi then Llo, each big-endian. -/
def lengthField (cH cL : Word) : List Byte :=
  bytesBE (bitLength cH cL).1 ++ bytesBE (bitLength cH cL).2

end Sys2Proof.Machine
end

