-- ==== Sys2Proof/Config.lean ====
section
/-! DEFINITION. What an implementation fixes (CTX_SIZE) and the free values: opaque constants without a body, so that no
proof can see what they are. -/

namespace Sys2Proof

/-- CTX_SIZE, the value SIZE answers: OPEN in spec/00_scope.md R7, "The same engine answers the same value every time"
(R65). DESIGN CHOICE (log 7): one opaque word; safe, nothing can be proved about its value. -/
opaque Config.ctxSize : Word

/-- The n-th free value of pl, which FINAL leaves unspecified (spec/10_state.md R19, R31). DESIGN CHOICE (log 4): safe. -/
opaque Config.freePending : Nat → BitVec 6

/-- The n-th free value of the working variables a..h, unspecified between commands (R21). DESIGN CHOICE (log 5): safe. -/
opaque Config.freeWork : Nat → Working

/-- The n-th free value of the schedule store W[0..63], unspecified between commands (R22). DESIGN CHOICE (log 5): safe. -/
opaque Config.freeSched : Nat → Vector Word 64

/-- The n-th free value of the round counter t, internal and not visible (R23). DESIGN CHOICE (log 5): safe. -/
opaque Config.freeRound : Nat → BitVec 6

end Sys2Proof
end

