-- ==== Sys2Proof/Machine/State.lean ====
section
/-! DEFINITION. The state of the engine and of its Host as plain data, the reasons a step can stop, and the state right
after reset (spec/10_state.md). -/

namespace Sys2Proof.Machine

/-- The lifecycle phase, ghost state (R25). -/
inductive Phase where
  /-- UNINIT: no INIT since reset. -/
  | uninit
  /-- ABSORBING: a message is open. -/
  | absorbing
  /-- FINALIZED: the digest has been emitted, no INIT since. -/
  | finalized
deriving DecidableEq, Repr

/-- A recorded fault, with the command word that raised it (R26, R104). -/
inductive FaultRecord where
  /-- Misuse: a legal UPDATE or FINAL while the phase is not ABSORBING (R106). -/
  | misuse (cmd : Word)
  /-- IllegalCommand: a command word that decodes to Illegal (R107). -/
  | illegalCommand (cmd : Word)
deriving DecidableEq, Repr

/-- What the Host does next on the engine's channels (R6, R42, R121). DESIGN CHOICE (log 10): the Host is a list of moves. -/
inductive HostMove where
  /-- Offer a command word and deliver these bytes behind it on DIN: a command transaction (R51). -/
  | command (cmd : Word) (payload : List Byte)
  /-- Deliver further bytes on DIN, for an UPDATE whose payload is still arriving (R127). -/
  | data (payload : List Byte)
  /-- Read one byte from DOUT (R42, R128). -/
  | read
  /-- Assert the hardware reset (R121). -/
  | reset
deriving DecidableEq, Repr

/-- Why a step stops. -/
inductive Fault where
  /-- Raised by every command, and every Host move but a reset, once a fault is recorded: "no command has a step, INIT
  included" (R105). It reports the record. Safe: the spec's machine stops too. -/
  | terminal (record : FaultRecord)
  /-- Raised when an UPDATE still waits for payload and the Host does not deliver it: stuck (R127). Safe. -/
  | stuckPayload
  /-- Raised when a response is not drained and the Host does something else: stuck (R126, R128). Safe. -/
  | stuckResponse
  /-- Raised when the Host waits on DOUT and no response is pending: it waits for ever (log 14). Safe. -/
  | stuckRead
  /-- Raised by UPDATE and FINAL when Compress would read a buffer byte nothing has written (R12). Safe: the spec calls
  it a fault; no state a run from reset reaches raises it (R94). -/
  | unwrittenRead
deriving DecidableEq, Repr

/-- Why the model gives no meaning. -/
inductive Refusal where
  /-- An instruction without a meaning yet; used only in Dispatch. Safe. -/
  | notModelled (mnemonic : String)
  /-- The Host offers DIN bytes when no UPDATE expects payload: "outside the model" (R127, D19; treatment `refuse` in
  93_implementation_defined.md U12). Safe: nothing is claimed of such a run. -/
  | strayData
deriving DecidableEq, Repr

/-- Everything the spec gives the engine, and the Host as far as the channels go. (The internal registers stand first, so
that the kernel tells a compressed state from an uncompressed one by a free value and never by running Compress.) -/
@[ext]
structure State where
  /-- Working variables a..h, internal (R21; log 5). -/
  work : Working
  /-- Schedule store W[0..63], internal (R22; log 5). -/
  sched : Vector Word 64
  /-- Round counter t, internal (R23; log 5). -/
  round : BitVec 6
  /-- H[0..7], the running hash value (R15). -/
  h : HashState
  /-- byteCountHigh (R16). -/
  cH : Word
  /-- byteCountLow (R16). -/
  cL : Word
  /-- Buf[0..63] as address and byte, addresses rising; an unlisted address holds no value (R12, R18; log 2, log 3). -/
  buf : List Host.Cell
  /-- pendingLength (R19). -/
  pl : BitVec 6
  /-- Lifecycle phase, ghost (R25). -/
  phase : Phase
  /-- Fault record, ghost (R26). -/
  fault : Option FaultRecord
  /-- READY (R24, R126). -/
  ready : Bool
  /-- The accepted command word whose payload is still arriving (R127). -/
  cmd : Option Word
  /-- Payload bytes received on DIN for the accepted command, In(0) first (R35). -/
  din : List Byte
  /-- Response bytes on DOUT not yet drained, the next one first (R36, R128). -/
  dout : List Byte
  /-- What the Host still does, the next move first (log 10). -/
  host : List HostMove
  /-- The bytes the Host has read from DOUT, the first one first (log 12). -/
  received : List Byte
  /-- How many free values have been drawn (log 6). -/
  free : Nat
deriving DecidableEq, Repr

/-- Right after reset (R29, R121): phase UNINIT, no fault, READY = 1, no response, Buf unwritten. The registers R29 calls
unwritten hold 0: DESIGN CHOICE (log 1), unsafe; no statement rests on it. The Host has no moves yet (log 10). -/
def State.reset : State where
  h := Vector.replicate 8 0
  cH := 0
  cL := 0
  buf := []
  pl := 0
  work := ⟨0, 0, 0, 0, 0, 0, 0, 0⟩
  sched := Vector.replicate 64 0
  round := 0
  phase := .uninit
  fault := none
  ready := true
  cmd := none
  din := []
  dout := []
  host := []
  received := []
  free := 0

/-- RESP_PENDING: the response bytes the Host has not yet drained (R24). -/
def State.respPending (s : State) : Nat := s.dout.length

end Sys2Proof.Machine
end

