-- ==== Sys2Proof/Machine/Ops.lean ====
section
/-! DEFINITION. The named operations over the buffer, the counter, the hash state, the channels and the fault record. -/

namespace Sys2Proof.Machine

/-! ### The block buffer (spec/20_memory.md R33, R34) -/

/-- Buffer addresses: 0..63 (R33). -/
def bufSize : Nat := 64

/-- Buf[j]; an unlisted address holds no value (R12; log 2). -/
def Memory.read : List Host.Cell → Nat → Option Byte
  | [], _ => none
  | (k, v) :: m, j => if k = j then some v else Memory.read m j

/-- Buf[j] <- b, keeping the addresses rising. -/
def Memory.write : List Host.Cell → Nat → Byte → List Host.Cell
  | [], j, b => [(j, b)]
  | (k, v) :: m, j, b =>
    if j < k then (j, b) :: (k, v) :: m
    else if j = k then (j, b) :: m
    else (k, v) :: Memory.write m j b

/-- The canonical form: addresses strictly rising and inside the buffer. -/
def Memory.wf : List Host.Cell → Bool
  | [] => true
  | [(k, _)] => decide (k < bufSize)
  | (k, _) :: (k', v') :: m => decide (k < k') && Memory.wf ((k', v') :: m)

/-- MemRead(j, n): the bytes Buf[j], …, Buf[j+n−1], or none if one of them was never written (R11, R12, R34). -/
def memRead (m : List Host.Cell) (j : Nat) : Nat → Option (List Byte)
  | 0 => some []
  | n + 1 =>
    match Memory.read m j, memRead m (j + 1) n with
    | some b, some bs => some (b :: bs)
    | _, _ => none

/-- MemWrite(j, n, bs) for n the length of bs: Buf[j+k] <- bs[k] (R34). -/
def memWrite (m : List Host.Cell) (j : Nat) : List Byte → List Host.Cell
  | [] => m
  | b :: bs => memWrite (Memory.write m j b) (j + 1) bs

/-! ### Counter and hash state -/

/-- (cH, cL) <- Add64((cH, cL), n) (R87). -/
def addCount (n : Word) (s : State) : State :=
  { s with cH := (add64 s.cH s.cL n).1, cL := (add64 s.cH s.cL n).2 }

/-- H <- Compress(H, block) (R83). Afterwards the internal registers hold no specified value (R21–R23): the next free
values (log 5; for two engines log 22). -/
def compressInto (block : List Byte) (s : State) : State :=
  { s with
    h := compress s.h block
    work := Config.freeWork s.free
    sched := Config.freeSched s.free
    round := Config.freeRound s.free
    free := s.free + 1 }

/-- pl <- 0. All of Buf is then unspecified, "A model treats them as unwritten" (R18, D17; log 3). -/
def emptyBuffer (s : State) : State := { s with pl := 0, buf := [] }

/-! ### Channels and faults -/

/-- The end of a command: its response goes to DOUT, and READY returns to 1 when there is none to drain (R126, R128). -/
def complete (response : List Byte) (s : State) : State :=
  { s with cmd := none, din := [], dout := response, ready := response.isEmpty }

/-- The command waits for the rest of its payload with READY = 0: it "does not complete until the last byte has arrived"
(R127; log 11). -/
def awaitPayload (w : Word) (s : State) : State := { s with cmd := some w, ready := false }

/-- raise Fault(kind, info) (R105): record it, change nothing else, emit nothing. The payload offered behind the command
is not consumed (R107), and READY, 0 since the word was accepted, stays 0 (log 9). -/
def recordFault (r : FaultRecord) (s : State) : State :=
  { s with fault := some r, ready := false, cmd := none, din := [] }

/-- Taking a fault: the next state, with the record set (R105; log 8). -/
def raise (r : FaultRecord) (s : State) : Host.Outcome State Fault Refusal := .next (recordFault r s)

/-- In a terminal state nothing has a step but the hardware reset (R105, R26). -/
def unlessFaulted (s : State) (k : Host.Outcome State Fault Refusal) : Host.Outcome State Fault Refusal :=
  match s.fault with
  | some r => .fault (.terminal r)
  | none => k

/-- The lifecycle check of UPDATE and FINAL, before any state changes: Misuse(CMD) unless ABSORBING (R106). -/
def requireAbsorbing (i : Instr) (s : State) (k : Host.Outcome State Fault Refusal) :
    Host.Outcome State Fault Refusal :=
  match s.phase with
  | .absorbing => k
  | .uninit => raise (.misuse (encode i)) s
  | .finalized => raise (.misuse (encode i)) s

/-- The outcome of a command's body: none where Compress would have read an unwritten byte (R12). -/
def finishWith (response : State → List Byte) : Option State → Host.Outcome State Fault Refusal
  | some t => .next (complete (response t) t)
  | none => .fault .unwrittenRead

/-- The numbers R104 assigns for models that want them: "Misuse = 1 and IllegalCommand = 2, with 0 meaning no fault". -/
def faultCode : Option FaultRecord → Nat
  | none => 0
  | some (.misuse _) => 1
  | some (.illegalCommand _) => 2

/-- The hardware reset (R121): the engine is as State.reset has it; the Host's remaining moves, what it has read and the
count of free values are not the engine's (log 16). -/
def hardwareReset (s : State) : State :=
  { State.reset with host := s.host, received := s.received, free := s.free }

end Sys2Proof.Machine
end

