-- ==== Sys2Proof/Machine/Context.lean ====
section
/-! DEFINITION. INIT and SIZE (spec/40_init_size.md). -/

namespace Sys2Proof.Machine

/-- What INIT sets: H, cH, cL, pl and the phase (R63). Buf is not written; with pl = 0 all of it is unspecified (R18). -/
def initContext (s : State) : State :=
  emptyBuffer { s with h := iv, cH := 0, cL := 0, phase := .absorbing }

/-- INIT, legal in every phase (R63, R64). -/
def execInit (s : State) : Host.Outcome State Fault Refusal :=
  unlessFaulted s (.next (complete [] (initContext s)))

/-- SIZE, legal in every phase: emits BYTES_BE(CTX_SIZE) and writes no state (R65). -/
def execSize (s : State) : Host.Outcome State Fault Refusal :=
  unlessFaulted s (.next (complete (bytesBE Config.ctxSize) s))

end Sys2Proof.Machine
end

