-- ==== Sys2Proof/Machine/Final.lean ====
section
/-! DEFINITION. FINAL: the seven steps of spec/43_final.md R94. -/

namespace Sys2Proof.Machine

/-- n zero bytes. -/
def zeros (n : Nat) : List Byte := List.replicate n 0

/-- Where the length field starts in the final block (R97, R99). -/
def lengthOffset : Nat := 56

/-- Steps 1 and 2: count the pending bytes (R95) and write 0x80 after them (R96). -/
def padStart (s : State) : State :=
  let s1 := addCount (s.pl.zeroExtend 32) s
  { s1 with buf := Memory.write s1.buf s1.pl.toNat 0x80 }

/-- H <- Compress(H, MemRead(0, 64)); none where a byte was never written (R12). -/
def compressBuffer (s : State) : Option State :=
  (memRead s.buf 0 bufSize).map (fun block => compressInto block s)

/-- Step 3 (R97): with j the position after the 0x80 byte, if there is no room for the length the block is zero-filled and
compressed, and "a fresh all-zero block" starts at 0. It answers the state and the position reached. -/
def closeBlock (s : State) (j : Nat) : Option (State × Nat) :=
  if j > lengthOffset then
    (compressBuffer { s with buf := memWrite s.buf j (zeros (bufSize - j)) }).map (fun t => (t, 0))
  else some (s, j)

/-- Steps 4 to 6: zero-fill up to 56, write the bit length there (R98, R99), compress. -/
def closeMessage (s : State) (j : Nat) : Option State :=
  let filled := memWrite s.buf j (zeros (lengthOffset - j))
  compressBuffer { s with buf := memWrite filled lengthOffset (lengthField s.cH s.cL) }

/-- Steps 1 to 6 of R94. -/
def padAndCompress (s : State) : Option State :=
  (closeBlock (padStart s) (s.pl.toNat + 1)).bind (fun p => closeMessage p.1 p.2)

/-- After the last compression: phase FINALIZED; Buf is unspecified, treated as unwritten (log 3), and pl is left
unspecified, the next free value (R31, R102; log 4; for two engines log 22). -/
def retire (s : State) : State :=
  { s with phase := .finalized, buf := [], pl := Config.freePending s.free, free := s.free + 1 }

/-- FINAL (R94): Misuse unless ABSORBING; the response is the digest, H[0] first, each word big-endian (R100). -/
def execFinal (s : State) : Host.Outcome State Fault Refusal :=
  unlessFaulted s <| requireAbsorbing .final s <|
    finishWith (fun t => serialise t.h) ((padAndCompress s).map retire)

end Sys2Proof.Machine
end

