-- ==== Sys2Proof/Machine/Update.lean ====
section
/-! DEFINITION. UPDATE: the three steps of spec/42_update.md R89, and the byte-serial form of R91. -/

namespace Sys2Proof.Machine

/-- One block: H <- Compress(H, block), then the counter advances by 64 (R89). -/
def absorbBlock (block : List Byte) (s : State) : State := addCount 64 (compressInto block s)

/-- Buf[pl] <- In(i); pl <- pl + 1 for each byte of bs: the bytes are appended after those still pending (R89, R93). -/
def appendBytes (bs : List Byte) (s : State) : State :=
  { s with buf := memWrite s.buf s.pl.toNat bs, pl := BitVec.ofNat 6 (s.pl.toNat + bs.length) }

/-- Step (1) of R89: top up a partly filled buffer, and compress it once it holds 64 bytes. It answers the state and the
input not yet consumed; none where a pending byte was never written (R12). -/
def topUp (input : List Byte) (s : State) : Option (State × List Byte) :=
  if s.pl = 0 then some (s, input)
  else
    let room := bufSize - s.pl.toNat
    if input.length < room then some (appendBytes input s, [])
    else
      match memRead (memWrite s.buf s.pl.toNat (input.take room)) 0 bufSize with
      | some block => some (emptyBuffer (absorbBlock block s), input.drop room)
      | none => none

/-- Step (2) of R89, for n whole blocks: compress them straight from the input. -/
def directBlocks : Nat → List Byte → State → State × List Byte
  | 0, input, s => (s, input)
  | n + 1, input, s => directBlocks n (input.drop bufSize) (absorbBlock (input.take bufSize) s)

/-- The three steps of R89 over the payload. -/
def absorb (input : List Byte) (s : State) : Option State :=
  match topUp input s with
  | none => none
  | some (s1, rest) =>
    let p := directBlocks (rest.length / bufSize) rest s1
    some (appendBytes p.2 p.1)

/-- UPDATE(LEN) (R89): the phase check comes before the first byte (R91, R106), then the payload must be there (R127). -/
def execUpdate (len : Nat) (s : State) : Host.Outcome State Fault Refusal :=
  unlessFaulted s <| requireAbsorbing (.update len) s <|
    if s.din.length < len then .next (awaitPayload (encode (.update len)) s)
    else finishWith (fun _ => []) (absorb (s.din.take len) s)

/-- AbsorbByte(b) (R91). -/
def absorbByte (b : Byte) (s : State) : Option State :=
  if s.pl.toNat + 1 < bufSize then some (appendBytes [b] s)
  else
    match memRead (Memory.write s.buf s.pl.toNat b) 0 bufSize with
    | some block => some (emptyBuffer (absorbBlock block s))
    | none => none

/-- AbsorbByte for In(0), In(1), … in order: the byte-serial form of UPDATE's state change (R91). -/
def absorbBytes : List Byte → State → Option State
  | [], s => some s
  | b :: bs, s =>
    match absorbByte b s with
    | some t => absorbBytes bs t
    | none => none

end Sys2Proof.Machine
end

