-- ==== Sys2Proof/Machine/Channel.lean ====
section
/-! DEFINITION. The Host's moves on the channels: the handshake of spec/70_reset_and_hazards.md R121–R128 and where a
command word comes from. Step.lean only calls what stands here. -/

namespace Sys2Proof.Machine

/-- How many payload bytes a command word announces: LEN for an UPDATE, none otherwise (R51, R52). -/
def payloadLength (w : Word) : Nat :=
  match decode w with
  | .ok i => lenOf i
  | .error _ => 0

/-- Bytes the engine does not take stay on DIN as the Host's next move (R127). -/
def offerAgain (bytes : List Byte) (rest : List HostMove) : List HostMove :=
  if bytes.isEmpty then rest else .data bytes :: rest

/-- An accepted word: a legal command executes, any other raises IllegalCommand whatever the phase (R107, R108). -/
def perform (w : Word) (s : State) : Host.Outcome State Fault Refusal :=
  match decode w with
  | .ok i => exec i s
  | .error _ => raise (.illegalCommand w) s

/-- Acceptance: "READY becomes 0 at once" (R126), and DIN takes at most the bytes the word announces (R127). -/
def accept (w : Word) (payload : List Byte) (rest : List HostMove) (s : State) : State :=
  { s with
    ready := false
    cmd := some w
    din := payload.take (payloadLength w)
    host := offerAgain (payload.drop (payloadLength w)) rest }

/-- No step: the engine waits for ever, for payload (R127) or for the response to be drained (R128). -/
def stuck (s : State) : Host.Outcome State Fault Refusal :=
  match s.cmd with
  | some _ => .fault .stuckPayload
  | none => .fault .stuckResponse

/-- The Host offers a command word: taken "only while READY = 1"; otherwise the Host holds it (R126). -/
def takeCommand (w : Word) (payload : List Byte) (rest : List HostMove) (s : State) :
    Host.Outcome State Fault Refusal :=
  if s.ready then perform w (accept w payload rest s) else stuck s

/-- More payload arrives for the command in progress (R127). -/
def receive (w : Word) (bytes : List Byte) (rest : List HostMove) (s : State) : State :=
  let missing := payloadLength w - s.din.length
  { s with din := s.din ++ bytes.take missing, host := offerAgain (bytes.drop missing) rest }

/-- The Host delivers DIN bytes: accepted only while an accepted UPDATE expects payload, otherwise outside the model
(R127, D19; log 13). An empty delivery is no transfer. -/
def takeData (bytes : List Byte) (rest : List HostMove) (s : State) : Host.Outcome State Fault Refusal :=
  if bytes.isEmpty then .next { s with host := rest }
  else
    match s.cmd with
    | some w => perform w (receive w bytes rest s)
    | none => .refused .strayData

/-- The Host reads DOUT: one byte leaves and is consumed (R42); with the last one READY returns to 1 (R128). With no
response pending the Host waits for ever (log 14). -/
def takeRead (rest : List HostMove) (s : State) : Host.Outcome State Fault Refusal :=
  match s.dout with
  | b :: bs =>
    .next { s with dout := bs, received := s.received ++ [b], ready := bs.isEmpty && s.cmd.isNone, host := rest }
  | [] => .fault .stuckRead

/-- The Host asserts reset, in any state, a terminal one included (R105, R121, R125; log 16). -/
def takeReset (rest : List HostMove) (s : State) : Host.Outcome State Fault Refusal :=
  .next { hardwareReset s with host := rest }

/-- The Host offers nothing: between commands the engine "is idle with READY = 1 and keeps all context state unchanged"
(R119; log 15); in the middle of one it is stuck. -/
def idle (s : State) : Host.Outcome State Fault Refusal :=
  if s.ready then .next s else stuck s

/-- The Host's next move is the command word w with the zero bytes it announces as payload, the engine ready to accept it
(log 10). -/
def offerWord (w : Word) (s : State) : State :=
  { s with
    fault := none
    ready := true
    cmd := none
    din := []
    dout := []
    host := .command w (List.replicate (payloadLength w) 0) :: s.host }

end Sys2Proof.Machine
end

