-- ==== Sys2Proof/Machine/Step.lean ====
section
/-! DEFINITION. One step: the Host's next move and the engine's answer to it (spec/00_scope.md R6). -/

namespace Sys2Proof.Machine

/-- The head of State.host says which agent acts: a reset always acts; anything else only while no fault is recorded. -/
def step (s : State) : Host.Outcome State Fault Refusal :=
  match s.host with
  | .reset :: rest => takeReset rest s
  | .command w payload :: rest => unlessFaulted s (takeCommand w payload rest s)
  | .data bytes :: rest => unlessFaulted s (takeData bytes rest s)
  | .read :: rest => unlessFaulted s (takeRead rest s)
  | [] => unlessFaulted s (idle s)

/-- s with the word w as the next command, so that the next step accepts and runs it. -/
def State.withFetchWord (s : State) (nbits w : Nat) : State :=
  offerWord (BitVec.ofNat 32 (w % 2 ^ nbits)) s

end Sys2Proof.Machine
end

