-- ==== Sys2Proof/Machine/Assembler.lean ====
section
/-! DEFINITION. The Host's side: the textual syntax of a command sequence (spec/30_encoding.md R60), the pseudo-commands
(R61) and their expansion into Host moves. No step of the engine depends on this file (D28). -/

namespace Sys2Proof.Machine

/-- Why the assembler refuses a text. -/
inductive AsmError where
  /-- A line that begins with no mnemonic of R60 or R61. -/
  | unknownMnemonic
  /-- A payload that is neither a string literal of ASCII text nor hex digit pairs, or an operand where none belongs. -/
  | badOperand
  /-- A payload longer than 2^24 − 1 bytes on update or hash (R60). -/
  | payloadTooLong
deriving DecidableEq, Repr

/-- One line of a program: a command of R60 or a pseudo-command of R61. -/
inductive AsmLine where
  | init
  | update (payload : List Byte)
  | final
  | size
  | hash (payload : List Byte)
  | updateStar (payload : List Byte)
  | reinit
deriving DecidableEq, Repr

/-- How many response bytes a command emits (R36). -/
def responseLength : Instr → Nat
  | .init => 0
  | .update _ => 0
  | .final => 32
  | .size => 4

/-- One command as the dutiful Host issues it: word and payload, then one read for each response byte (R127, R128). -/
def issue (i : Instr) (payload : List Byte) : List HostMove :=
  .command (encode i) payload :: List.replicate (responseLength i) .read

/-- An update with its payload, LEN its length (R60). -/
def issueUpdate (payload : List Byte) : List HostMove := issue (.update payload.length) payload

/-- Successive slices of at most n bytes, each of n bytes "except the last" (R61); the first argument bounds their number. -/
def slices (n : Nat) : Nat → List Byte → List (List Byte)
  | 0, _ => []
  | k + 1, bs => if bs.length ≤ n then [bs] else bs.take n :: slices n k (bs.drop n)

/-- The slices of `update*`: 2^24 − 1 bytes each, except the last (R61). -/
def updateSlices (payload : List Byte) : List (List Byte) := slices (lenLimit - 1) (payload.length + 1) payload

/-- A line's moves; a payload too long for one command is refused, except by `update*` (R60, R61). -/
def expandLine : AsmLine → Except AsmError (List HostMove)
  | .init => .ok (issue .init [])
  | .reinit => .ok (issue .init [])
  | .final => .ok (issue .final [])
  | .size => .ok (issue .size [])
  | .update p => if p.length < lenLimit then .ok (issueUpdate p) else .error .payloadTooLong
  | .updateStar p => .ok ((updateSlices p).flatMap issueUpdate)
  | .hash p =>
    if p.length < lenLimit then .ok (issue .init [] ++ issueUpdate p ++ issue .final [])
    else .error .payloadTooLong

/-- The text cut into lines. DESIGN CHOICE (log 20): LF alone ends a line, also inside a string literal; a CR is a character
of its line. -/
def splitLines : List Char → List (List Char)
  | [] => [[]]
  | c :: cs =>
    match splitLines cs with
    | [] => [[c]]
    | l :: ls => if c = '\n' then [] :: l :: ls else (c :: l) :: ls

/-- A line without its comment: `;` starts one, except inside a string literal (R60; log 20). -/
def stripComment (inString : Bool) : List Char → List Char
  | [] => []
  | c :: cs =>
    if c = ';' && !inString then []
    else c :: stripComment (if c = '"' then !inString else inString) cs

/-- A line without spaces at its ends. DESIGN CHOICE (log 20): the space alone is skipped, a tab or a CR is not. -/
def trim (l : List Char) : List Char :=
  ((l.dropWhile (· = ' ')).reverse.dropWhile (· = ' ')).reverse

/-- The value of a hex digit. -/
def hexDigit (c : Char) : Option Nat :=
  if '0' ≤ c ∧ c ≤ '9' then some (c.toNat - '0'.toNat)
  else if 'a' ≤ c ∧ c ≤ 'f' then some (c.toNat - 'a'.toNat + 10)
  else if 'A' ≤ c ∧ c ≤ 'F' then some (c.toNat - 'A'.toNat + 10)
  else none

/-- Two hex digits as a byte. -/
def hexByte (a b : Char) : Option Byte :=
  match hexDigit a, hexDigit b with
  | some x, some y => some (BitVec.ofNat 8 (16 * x + y))
  | _, _ => none

/-- Pairs of hex digits "without separators or with single spaces between bytes" (R60). DESIGN CHOICE (log 20): each gap may
have no space or one, independently of the others, so one payload may mix the two forms. -/
def hexPairs : List Char → Option (List Byte)
  | [] => some []
  | [_] => none
  | a :: b :: ' ' :: c :: rest =>
    match hexByte a b, hexPairs (c :: rest) with
    | some x, some xs => some (x :: xs)
    | _, _ => none
  | a :: b :: rest =>
    match hexByte a b, hexPairs rest with
    | some x, some xs => some (x :: xs)
    | _, _ => none

/-- The characters of a string literal after its opening quote, up to the closing one at the line's end; ASCII only, no
escapes (R60). -/
def stringBytes : List Char → Option (List Byte)
  | [] => none
  | c :: cs =>
    if c = '"' then (if cs.isEmpty then some [] else none)
    else if c.toNat < 128 then (stringBytes cs).map (fun bs => BitVec.ofNat 8 c.toNat :: bs)
    else none

/-- A payload operand (R60). -/
def payloadOperand : List Char → Except AsmError (List Byte)
  | '"' :: cs =>
    match stringBytes cs with
    | some bs => .ok bs
    | none => .error .badOperand
  | '0' :: 'x' :: cs =>
    match hexPairs cs with
    | some bs => .ok bs
    | none => .error .badOperand
  | _ => .error .badOperand

/-- A line that takes no operand. -/
def bareLine (operand : List Char) (l : AsmLine) : Except AsmError AsmLine :=
  if operand.isEmpty then .ok l else .error .badOperand

/-- A line that takes a payload. -/
def payloadLine (operand : List Char) (mk : List Byte → AsmLine) : Except AsmError AsmLine :=
  match payloadOperand operand with
  | .ok bs => .ok (mk bs)
  | .error e => .error e

/-- One line without comment and outer spaces: a mnemonic, and its operand behind a space (R60, R61). DESIGN CHOICE (log 20):
one space or more separate them, and no other character does, so a tab there is refused. -/
def parseLine (l : List Char) : Except AsmError AsmLine :=
  let word := l.takeWhile (· ≠ ' ')
  let operand := trim (l.dropWhile (· ≠ ' '))
  if word = "init".toList then bareLine operand .init
  else if word = "reinit".toList then bareLine operand .reinit
  else if word = "final".toList then bareLine operand .final
  else if word = "size".toList then bareLine operand .size
  else if word = "update".toList then payloadLine operand .update
  else if word = "update*".toList then payloadLine operand .updateStar
  else if word = "hash".toList then payloadLine operand .hash
  else .error .unknownMnemonic

/-- The moves of a list of lines, in order; an empty line has none. -/
def assembleLines : List (List Char) → Except AsmError (List HostMove)
  | [] => .ok []
  | l :: ls =>
    let line := trim (stripComment false l)
    let here := if line.isEmpty then .ok [] else
      match parseLine line with
      | .ok a => expandLine a
      | .error e => .error e
    match here, assembleLines ls with
    | .ok xs, .ok ys => .ok (xs ++ ys)
    | .error e, _ => .error e
    | _, .error e => .error e

/-- A whole text (R60). -/
def assemble (text : List Char) : Except AsmError (List HostMove) := assembleLines (splitLines text)

end Sys2Proof.Machine
end

