-- ==== Sys2Proof/Machine/Engines.lean ====
section
/-! DEFINITION. NUM_ENGINES engines side by side: "Engines share no state" (spec/20_memory.md R50, spec/60_exceptions.md
R117). Each engine has its own context, channels and Host. -/

namespace Sys2Proof.Machine

/-- One step of engine k among n engines; the other engines keep their states (R50). Which engine steps is not the
machine's choice, so it is an argument (log 19). DESIGN CHOICE (log 22): the engines draw their free values from the same
opaque functions of Config, each by its own count, so two engines with equal counts hold equal unspecified values (pl after
FINAL; a..h, W and t after Compress), which the spec leaves unrelated. Unsafe for a claim that compares them. -/
def stepEngine {n : Nat} (k : Fin n) (engines : Vector State n) :
    Host.Outcome (Vector State n) Fault Refusal :=
  match step engines[k] with
  | .next t => .next (engines.set k t)
  | .fault f => .fault f
  | .refused r => .refused r

end Sys2Proof.Machine
end

