-- ==== Sys2Proof/Safety.lean ====
section
/-! DEFINITION. The terms the claims use: the reference hash of a message, what the context holds of an absorbed message
(spec/10_state.md R32), and the invariant every step keeps. -/

namespace Sys2Proof.Machine

/-! ### The hash of a whole message, written without the engine's buffer -/

/-- The first n blocks of m compressed into a hash state, in order (R32). -/
def hashBlocks : Nat → List Byte → HashState → HashState
  | 0, _, v => v
  | n + 1, m, v => hashBlocks n (m.drop 64) (compress v (m.take 64))

/-- How many zero bytes stand between 0x80 and the length field for a message of n bytes (R97). -/
def zeroCount (n : Nat) : Nat := (64 - (n + 9) % 64) % 64

/-- The 64-bit value (8·n) mod 2^64 as 8 bytes, most significant first (R98, R99). -/
def bitLengthBytes (n : Nat) : List Byte :=
  (List.range 8).map (fun k => (BitVec.ofNat 64 (8 * n)).extractLsb' (56 - 8 * k) 8)

/-- M ‖ 0x80 ‖ 0x00^z ‖ L (R97). -/
def paddedMessage (m : List Byte) : List Byte :=
  m ++ 0x80 :: (zeros (zeroCount m.length) ++ bitLengthBytes m.length)

/-- The digest of a whole message (R1, R100, R103). -/
def messageDigest (m : List Byte) : List Byte :=
  serialise (hashBlocks ((paddedMessage m).length / 64) (paddedMessage m) iv)

/-! ### Where the constants come from (R70) -/

/-- The first 64 primes, p_1 = 2 to p_64 = 311 (R70). -/
def firstPrimes : List Nat :=
  [2, 3, 5, 7, 11, 13, 17, 19, 23, 29, 31, 37, 41, 43, 47, 53] ++
  [59, 61, 67, 71, 73, 79, 83, 89, 97, 101, 103, 107, 109, 113, 127, 131] ++
  [137, 139, 149, 151, 157, 163, 167, 173, 179, 181, 191, 193, 197, 199, 211, 223] ++
  [227, 229, 233, 239, 241, 251, 257, 263, 269, 271, 277, 281, 283, 293, 307, 311]

/-- A number from 2 on that no number from 2 on below it divides. -/
def isPrime (p : Nat) : Bool := decide (2 ≤ p) && (List.range p).all (fun d => decide (d < 2) || decide (p % d ≠ 0))

/-- r is ⌊√x⌋. -/
abbrev IsSqrt (x r : Nat) : Prop := r ^ 2 ≤ x ∧ x < (r + 1) ^ 2

/-- r is ⌊∛x⌋. -/
abbrev IsCbrt (x r : Nat) : Prop := r ^ 3 ≤ x ∧ x < (r + 1) ^ 3

/-! ### What the context holds -/

/-- R32: the context in phase ABSORBING after the message bytes m since INIT. -/
structure Absorbed (s : State) (m : List Byte) : Prop where
  /-- The phase R32 speaks of. -/
  phase : s.phase = .absorbing
  /-- R32(a). -/
  count : count64 s.cH s.cL = BitVec.ofNat 64 (64 * (m.length / 64))
  /-- R32(b). -/
  pending : s.pl.toNat = m.length % 64
  /-- R32(c). -/
  buffer : memRead s.buf 0 s.pl.toNat = some (m.drop (64 * (m.length / 64)))
  /-- R32(d). -/
  hash : s.h = hashBlocks (m.length / 64) m iv

/-- Buf holds the pl pending bytes and nothing else (R18; log 3). -/
def PendingExact (s : State) : Prop := s.buf.map Prod.fst = List.range s.pl.toNat

/-- The hash context of a state: what INIT, UPDATE and FINAL work on (R14, R25). -/
def sameContext (s t : State) : Prop :=
  t.h = s.h ∧ t.cH = s.cH ∧ t.cL = s.cL ∧ t.buf = s.buf ∧ t.pl = s.pl ∧ t.phase = s.phase

/-- The internal registers of the Compression Core (R21–R23). -/
def sameInternals (s t : State) : Prop := t.work = s.work ∧ t.sched = s.sched ∧ t.round = s.round

/-- What raising r leaves (R105): the record is set, the hash context and the internal registers are as they were, and no
response byte is emitted. -/
def Faulted (r : FaultRecord) (s t : State) : Prop :=
  t.fault = some r ∧ sameContext s t ∧ sameInternals s t ∧ t.dout = s.dout ∧ t.received = s.received

/-- Nothing has a step in t but the hardware reset (R105): every command, and every Host move but a reset, stops. -/
def Terminal (r : FaultRecord) (t : State) : Prop :=
  (∀ i : Instr, exec i t = .fault (.terminal r)) ∧
  (t.host = [] → step t = .fault (.terminal r)) ∧
  (∀ move rest, t.host = move :: rest → move ≠ .reset → step t = .fault (.terminal r))

/-- What is no command's business: the Host's moves and what the Host has read. -/
def sameHost (s t : State) : Prop := t.host = s.host ∧ t.received = s.received

/-- A command without response has ended: READY = 1, nothing in progress (R126). -/
def Ended (t : State) : Prop := t.fault = none ∧ t.ready = true ∧ t.cmd = none ∧ t.din = [] ∧ t.dout = []

/-- A command with a response has run: the response is on DOUT, READY = 0 until it is drained (R128). -/
def Responding (response : List Byte) (t : State) : Prop :=
  t.fault = none ∧ t.ready = false ∧ t.cmd = none ∧ t.din = [] ∧ t.dout = response

/-- The invariant every step keeps. -/
structure Inv (s : State) : Prop where
  /-- In phase ABSORBING the buffer holds exactly the pending bytes (R18). -/
  pendingExact : s.phase = .absorbing → PendingExact s
  /-- In the other phases no buffer byte holds a value (R29, R31). -/
  bufferEmpty : s.phase ≠ .absorbing → s.buf = []
  /-- In phase ABSORBING, cL mod 64 = 0 (R17). -/
  countAligned : s.phase = .absorbing → s.cL.toNat % 64 = 0
  /-- READY = 1 only between commands: none in progress, no response pending (R126–R128). -/
  readyIdle : s.ready = true → s.cmd = none ∧ s.dout = [] ∧ s.fault = none
  /-- READY = 0 only for a command in progress, a response to drain or a recorded fault (R105, R126–R128). -/
  busyReason : s.ready = false → s.cmd ≠ none ∨ s.dout ≠ [] ∨ s.fault ≠ none
  /-- Only a legal UPDATE short of payload, in phase ABSORBING, is ever in progress (R127). -/
  waiting : ∀ w, s.cmd = some w →
    s.phase = .absorbing ∧ s.dout = [] ∧ s.fault = none ∧
      ∃ len, decode w = .ok (.update len) ∧ s.din.length < len
  /-- DIN holds payload only for a command in progress (R127). -/
  dinIdle : s.cmd = none → s.din = []
  /-- A recorded fault leaves no response pending (R105). -/
  faultSilent : s.fault ≠ none → s.dout = []
  /-- RESP_PENDING is at most 32 (R24, R36). -/
  pendingBound : s.respPending ≤ 32

/-- k steps, one after the other, as far as each has a next state. -/
def runSteps : Nat → State → Host.Outcome State Fault Refusal
  | 0, s => .next s
  | k + 1, s =>
    match step s with
    | .next t => runSteps k t
    | .fault f => .fault f
    | .refused r => .refused r

/-- A list of chunks absorbed by one UPDATE each, from a state whose message is open: exec of each in turn, with the
chunk as its payload. -/
def absorbChunks : List (List Byte) → State → Host.Outcome State Fault Refusal
  | [], s => .next s
  | c :: cs, s =>
    match exec (.update c.length) { s with din := c } with
    | .next t => absorbChunks cs t
    | .fault f => .fault f
    | .refused r => .refused r

end Sys2Proof.Machine
end

