-- ==== Sys2Proof/Certificates/Slice0/Obligations.lean ====
section
/-! DEFINITION. The statements for the provers, one def Obligations.<Name> : Prop each; OBLIGATIONS.json lists them. -/

open Sys2Proof Sys2Proof.Machine

/-! ### The command word (spec/30_encoding.md) -/

/-- Every legal command survives its encoding (30_encoding.md section 3, from R52, R53 and R57). -/
def Obligations.DecodeInvertsEncode : Prop :=
  ∀ i : Instr, i.WellFormed → decode (encode i) = .ok i

/-- Every word that decodes is the encoding of what it decodes to, and that is a legal command (30_encoding.md section 3). -/
def Obligations.EncodeInvertsDecode : Prop :=
  ∀ (w : Word) (i : Instr), decode w = .ok i → encode i = w ∧ i.WellFormed

/-- R57: decode by the three fields, LEN = bits 31:8, RSV = bits 7:4, OP = bits 3:0, over all words: one word each for INIT,
FINAL and SIZE, one for each UPDATE(n) with n < 2^24, every other word Illegal. -/
def Obligations.DecodeByFields : Prop :=
  (∀ w : Word,
    let op := w.toNat % 16
    let rsv := w.toNat / 16 % 16
    let len := w.toNat / 256
    (decode w = .ok .init ↔ rsv = 0 ∧ op = 1 ∧ len = 0) ∧
    (∀ n, decode w = .ok (.update n) ↔ rsv = 0 ∧ op = 2 ∧ len = n) ∧
    (decode w = .ok .final ↔ rsv = 0 ∧ op = 3 ∧ len = 0) ∧
    (decode w = .ok .size ↔ rsv = 0 ∧ op = 4 ∧ len = 0) ∧
    ((∃ e, decode w = .error e) ↔
      (op = 0 ∨ 5 ≤ op) ∨ rsv ≠ 0 ∨ ((op = 1 ∨ op = 3 ∨ op = 4) ∧ len ≠ 0))) ∧
  (∃! w : Word, decode w = .ok .init) ∧ (∃! w : Word, decode w = .ok .final) ∧ (∃! w : Word, decode w = .ok .size) ∧
  (∀ n, n < 2 ^ 24 → ∃! w : Word, decode w = .ok (.update n)) ∧
  (∀ n, 2 ^ 24 ≤ n → ∀ w : Word, decode w ≠ .ok (.update n))

/-- The worked encodings of R62, decoded (95_test_vectors.md section 2.1). -/
def Obligations.WorkedEncodings : Prop :=
  decode 0x00000001 = .ok .init ∧ decode 0x00000002 = .ok (.update 0) ∧ decode 0x00000302 = .ok (.update 3) ∧
  decode 0x00004002 = .ok (.update 64) ∧ decode 0xFFFFFF02 = .ok (.update 16777215) ∧
  decode 0x00000003 = .ok .final ∧ decode 0x00000004 = .ok .size ∧
  decode 0x00000000 = .error .reservedOpcode ∧ decode 0x00000005 = .error .reservedOpcode ∧
  decode 0x00000012 = .error .reservedBits ∧ decode 0x00000101 = .error .nonzeroLength

/-! ### Words and bytes (spec/00_scope.md R9, R10; spec/20_memory.md) -/

/-- R9: every word operator, bit by bit or as a number. -/
def Obligations.WordOperators : Prop :=
  (∀ a b : Word, (a + b).toNat = (a.toNat + b.toNat) % 2 ^ 32 ∧ ~~~a = 0xFFFFFFFF ^^^ a) ∧
  (∀ (a b : Word) (i : Nat), i < 32 →
    (a &&& b).getLsbD i = (a.getLsbD i && b.getLsbD i) ∧ (a ||| b).getLsbD i = (a.getLsbD i || b.getLsbD i) ∧
    (a ^^^ b).getLsbD i = (a.getLsbD i).xor (b.getLsbD i)) ∧
  (∀ (x : Word) (n : Nat), n ≤ 31 →
    (shr x n).toNat = x.toNat / 2 ^ n ∧ (shl x n).toNat = x.toNat * 2 ^ n % 2 ^ 32) ∧
  (∀ (x : Word) (n : Nat), 1 ≤ n → n ≤ 31 →
    (rotr x n).toNat = (x.toNat / 2 ^ n ||| x.toNat * 2 ^ (32 - n) % 2 ^ 32) ∧
    ∀ i, i < 32 → (rotr x n).getLsbD i = x.getLsbD ((i + n) % 32))

/-- R10: BE32 by shifts, BYTES_BE by bit fields, each the other's inverse. -/
def Obligations.BigEndianConversions : Prop :=
  (∀ b0 b1 b2 b3 : Byte,
    (be32 b0 b1 b2 b3).toNat = b0.toNat * 2 ^ 24 + b1.toNat * 2 ^ 16 + b2.toNat * 2 ^ 8 + b3.toNat ∧
    bytesBE (be32 b0 b1 b2 b3) = [b0, b1, b2, b3]) ∧
  (∀ w : Word,
    bytesBE w = [w.extractLsb' 24 8, w.extractLsb' 16 8, w.extractLsb' 8 8, w.extractLsb' 0 8] ∧
    wordsBE (bytesBE w) = [w])

/-- R37: W[i] of a 64-byte block is BE32 of its bytes 4i to 4i+3; the first byte is bits 31..24 of W[0]. -/
def Obligations.MessageWordsBigEndian : Prop :=
  ∀ block : List Byte, block.length = 64 →
    (∀ i, i < 16 →
      (schedule block)[i]? =
        some (be32 (block.getD (4 * i) 0) (block.getD (4 * i + 1) 0) (block.getD (4 * i + 2) 0)
          (block.getD (4 * i + 3) 0))) ∧
    ((schedule block).getD 0 0).extractLsb' 24 8 = block.getD 0 0

/-- R39 and R100: FINAL's response, where it has a step in phase ABSORBING, is 32 bytes; byte 4i+k is bits 31−8k to 24−8k of
H[i], and H keeps these words. -/
def Obligations.DigestByteOrder : Prop :=
  ∀ s t : State, s.phase = .absorbing → exec .final s = .next t →
    t.dout.length = 32 ∧
    ∀ (i : Fin 8) (k : Nat), k < 4 → t.dout[4 * i.val + k]? = some (t.h[i].extractLsb' (24 - 8 * k) 8)

/-! ### The counter (spec/42_update.md section 1, spec/43_final.md R98, R99) -/

/-- R87: Add64 adds modulo 2^64, the low half modulo 2^32 with its carry going into the high half; UPDATE adds 64 for a
block, FINAL adds pl. -/
def Obligations.CounterAddition : Prop :=
  (∀ cH cL n : Word,
    let r := add64 cH cL n
    r.2 = cL + n ∧ r.1 = cH + (if cL.toNat + n.toNat < 2 ^ 32 then 0 else 1) ∧
    (count64 r.1 r.2).toNat = ((count64 cH cL).toNat + n.toNat) % 2 ^ 64) ∧
  (∀ (block : List Byte) (s : State),
    ((absorbBlock block s).cH, (absorbBlock block s).cL) = add64 s.cH s.cL 64) ∧
  (∀ s : State, ((padStart s).cH, (padStart s).cL) = add64 s.cH s.cL (s.pl.zeroExtend 32))

/-- R98: the bit length is the 64-bit value (8·C) mod 2^64, in two words. -/
def Obligations.BitLengthIsEightTimesCount : Prop :=
  ∀ cH cL : Word,
    (bitLength cH cL).1 = shl cH 3 ||| shr cL 29 ∧ (bitLength cH cL).2 = shl cL 3 ∧
    (bitLength cH cL).1.toNat * 2 ^ 32 + (bitLength cH cL).2.toNat = 8 * (count64 cH cL).toNat % 2 ^ 64

/-- R99: byte k of the length field is bits 63−8k to 56−8k of the bit length. -/
def Obligations.LengthFieldBigEndian : Prop :=
  ∀ cH cL : Word, lengthField cH cL = bitLengthBytes (count64 cH cL).toNat

/-! ### Constants and the Compression Core (spec/41_compression.md) -/

/-- R70: IV and K are the fractional parts of the square and cube roots of the first primes. -/
def Obligations.ConstantsFromPrimeRoots : Prop :=
  firstPrimes = (List.range 312).filter isPrime ∧
  (∀ i, i < 8 → ∃ r, IsSqrt (firstPrimes.getD i 0 * 2 ^ 64) r ∧ iv[i]?.getD 0 = BitVec.ofNat 32 r) ∧
  (∀ t, t < 64 → ∃ r, IsCbrt (firstPrimes.getD t 0 * 2 ^ 96) r ∧ roundConstant t = BitVec.ofNat 32 r)

/-- R75, R76: the two formulas; each bit of x selects y's or z's bit; each bit of Maj is the majority of the three. -/
def Obligations.ChooseAndMajority : Prop :=
  (∀ x y z : Word, ch x y z = (x &&& y) ^^^ (~~~x &&& z) ∧ maj x y z = (x &&& y) ^^^ (x &&& z) ^^^ (y &&& z)) ∧
  ∀ (x y z : Word) (i : Nat), i < 32 →
    (ch x y z).getLsbD i = (if x.getLsbD i then y.getLsbD i else z.getLsbD i) ∧
    ((maj x y z).getLsbD i = true ↔ 2 ≤ (x.getLsbD i).toNat + (y.getLsbD i).toNat + (z.getLsbD i).toNat)

/-- The fixed points and identities of 41_compression.md section 2 (from R71–R76). -/
def Obligations.FunctionFixedPoints : Prop :=
  smallSigma0 0 = 0 ∧ smallSigma1 0 = 0 ∧ bigSigma0 0 = 0 ∧ bigSigma1 0 = 0 ∧
  bigSigma0 0xffffffff = 0xffffffff ∧ bigSigma1 0xffffffff = 0xffffffff ∧
  smallSigma0 0xffffffff = 0x1fffffff ∧ smallSigma1 0xffffffff = 0x003fffff ∧
  (∀ x y : Word, ch x y y = y) ∧ (∀ x z : Word, maj x x z = x)

/-- R79: the schedule of a 64-byte block has 64 words, and from W[16] on each is the recurrence of earlier ones. -/
def Obligations.ScheduleRecurrence : Prop :=
  ∀ block : List Byte, block.length = 64 →
    (schedule block).length = 64 ∧
    ∀ i, 16 ≤ i → i < 64 →
      let w := fun j => (schedule block).getD j 0
      w i = smallSigma1 (w (i - 2)) + w (i - 7) + smallSigma0 (w (i - 15)) + w (i - 16)

/-- R82 and R81: (a..h) start as H[0..7]; rounds t = 0 to 63 run in order, each once, by R81's equations over K[t] and W[t]
and the values before the round. Compress adds the last working variables to H (R83). -/
def Obligations.CompressByRounds : Prop :=
  ∀ (hash : HashState) (block : List Byte), block.length = 64 →
    ∃ v : Nat → Working,
      v 0 = ⟨hash[0], hash[1], hash[2], hash[3], hash[4], hash[5], hash[6], hash[7]⟩ ∧
      (∀ t, t < 64 →
        let p := v t
        let t1 := p.h + bigSigma1 p.e + ch p.e p.f p.g + roundConstant t + (schedule block).getD t 0
        let t2 := bigSigma0 p.a + maj p.a p.b p.c
        v (t + 1) = ⟨t1 + t2, p.a, p.b, p.c, p.d + t1, p.e, p.f, p.g⟩) ∧
      compress hash block =
        #v[hash[0] + (v 64).a, hash[1] + (v 64).b, hash[2] + (v 64).c, hash[3] + (v 64).d,
          hash[4] + (v 64).e, hash[5] + (v 64).f, hash[6] + (v 64).g, hash[7] + (v 64).h]

/-- A 16-word circular window in place of the 64-word schedule gives the same result (41_compression.md section 3, from R79). -/
def Obligations.WindowedCompressionAgrees : Prop :=
  ∀ (hash : HashState) (block : List Byte), block.length = 64 → compressWindow hash block = compress hash block

/-- The worked example of 41_compression.md section 4: the padded block of "abc" from IV. -/
def Obligations.CompressWorkedExample : Prop :=
  compress iv ([0x61, 0x62, 0x63, 0x80] ++ zeros 59 ++ [0x18]) =
    #v[0xba7816bf, 0x8f01cfea, 0x414140de, 0x5dae2223, 0xb00361a3, 0x96177a9c, 0xb410ff61, 0xf20015ad]

/-! ### INIT and SIZE (spec/40_init_size.md) -/

/-- R63: INIT is the word 0x00000001 and no other; it completes in every state without a recorded fault: H = IV, cH = cL = 0,
pl = 0, phase ABSORBING, no response byte. No byte of Buf is written: after it no address reads as anything but what it read as
before, or as unwritten (which it is: R18, log 3). The internal registers and the Host are as before. -/
def Obligations.InitLoadsContext : Prop :=
  (∀ w : Word, decode w = .ok .init ↔ w = 0x00000001) ∧
  ∀ s : State, s.fault = none → ∃ t, exec .init s = .next t ∧
    t.h = #v[0x6a09e667, 0xbb67ae85, 0x3c6ef372, 0xa54ff53a, 0x510e527f, 0x9b05688c, 0x1f83d9ab, 0x5be0cd19] ∧
    t.cH = 0 ∧ t.cL = 0 ∧ t.pl = 0 ∧ t.phase = .absorbing ∧ Ended t ∧
    (∀ j, Memory.read t.buf j = Memory.read s.buf j ∨ Memory.read t.buf j = none) ∧
    sameInternals s t ∧ sameHost s t

/-- R64: INIT in any phase overwrites H, cH, cL and pl and opens a message; INIT after INIT leaves the state of one INIT; and
whatever message was open, nothing of it survives. That the whole next state is the same whatever Buf held rests on log 3 (R18):
INIT drops the buffer bytes that pl = 0 makes unspecified; R64(c) itself speaks of H, C and pl. -/
def Obligations.InitInAnyPhase : Prop :=
  ∀ s : State, s.fault = none → ∃ t, exec .init s = .next t ∧ t.phase = .absorbing ∧
    t.h = iv ∧ t.cH = 0 ∧ t.cL = 0 ∧ t.pl = 0 ∧
    exec .init t = .next t ∧
    ∀ (h : HashState) (cH cL : Word) (buf : List Host.Cell) (pl : BitVec 6) (phase : Phase),
      exec .init { s with h := h, cH := cH, cL := cL, buf := buf, pl := pl, phase := phase } = .next t

/-- R65: SIZE is the word 0x00000004 and no other; it completes in every state without a recorded fault: it emits CTX_SIZE,
most significant byte first, and writes no state. -/
def Obligations.SizeEmitsContextSize : Prop :=
  (∀ w : Word, decode w = .ok .size ↔ w = 0x00000004) ∧
  ∀ s : State, s.fault = none → ∃ t, exec .size s = .next t ∧
    Responding (bytesBE Config.ctxSize) t ∧ sameContext s t ∧ sameInternals s t ∧ sameHost s t

/-! ### UPDATE (spec/42_update.md) -/

/-- R89 and R93, for every split of the input that R89 makes: with the pending bytes in Buf and the whole payload on DIN,
UPDATE completes; the pending bytes followed by the payload are compressed block by block from H, C grows by 64 a block, and
the rest is left pending. A buffer that held nothing but the pending bytes does so afterwards (R18, log 3). The Host is as
before. -/
def Obligations.UpdateEffect : Prop :=
  ∀ (s : State) (pending : List Byte) (len : Nat), s.fault = none → s.phase = .absorbing →
    memRead s.buf 0 s.pl.toNat = some pending → s.din.length = len →
    let input := pending ++ s.din
    let n := input.length / 64
    ∃ t, exec (.update len) s = .next t ∧ Ended t ∧ t.phase = .absorbing ∧
      t.h = hashBlocks n input s.h ∧
      (count64 t.cH t.cL).toNat = ((count64 s.cH s.cL).toNat + 64 * n) % 2 ^ 64 ∧
      t.pl.toNat = input.length % 64 ∧
      memRead t.buf 0 t.pl.toNat = some (input.drop (64 * n)) ∧ (PendingExact s → PendingExact t) ∧ sameHost s t

/-- The frame of an UPDATE that fills no block: H, the counter and the internal registers keep their values, and every buffer
byte outside Buf[pl..pl+LEN−1] reads as before; those bytes are the payload (R89). -/
def Obligations.UpdateAppendFrame : Prop :=
  ∀ (s : State) (len : Nat), s.fault = none → s.phase = .absorbing → s.din.length = len → s.pl.toNat + len < 64 →
    ∃ t, exec (.update len) s = .next t ∧ Ended t ∧
      t.h = s.h ∧ t.cH = s.cH ∧ t.cL = s.cL ∧ t.phase = s.phase ∧ sameInternals s t ∧ sameHost s t ∧
      t.pl.toNat = s.pl.toNat + len ∧
      (∀ a, a < s.pl.toNat ∨ s.pl.toNat + len ≤ a → Memory.read t.buf a = Memory.read s.buf a) ∧
      (∀ k, k < len → Memory.read t.buf (s.pl.toNat + k) = s.din[k]?)

/-- R92: with LEN = 0, UPDATE in phase ABSORBING writes nothing and emits nothing; in the other phases it still raises
Misuse. -/
def Obligations.UpdateZeroLength : Prop :=
  ∀ s : State, s.fault = none →
    (s.phase = .absorbing → ∃ t, exec (.update 0) s = .next t ∧ Ended t ∧ sameContext s t ∧ sameInternals s t ∧
      sameHost s t) ∧
    (s.phase ≠ .absorbing → ∃ t, exec (.update 0) s = .next t ∧ Faulted (.misuse 0x00000002) s t)

/-- The byte-serial form leaves the state of the three-step form (42_update.md section 2, from R89), for a buffer that holds
exactly the pending bytes (an invariant of phase ABSORBING: Obligations.StepKeepsInvariant). R91 gives the engine's state; that
the two whole states are equal rests on logs 3, 5 and 6 (dropped buffer bytes, free values, their count). -/
def Obligations.UpdateByteSerialForm : Prop :=
  ∀ (s : State) (input : List Byte), PendingExact s → absorb input s = absorbBytes input s

/-- Chunking invariance (42_update.md section 2, from R87 and R89): two UPDATEs leave exactly the state one UPDATE with both
payloads leaves. The premise PendingExact is the invariant of phase ABSORBING (Obligations.StepKeepsInvariant). R90 gives H, C, pl
and Buf[0..pl-1]; that the two whole states are equal rests on logs 3, 5 and 6 (dropped buffer bytes, free values, their
count). -/
def Obligations.ChunkingInvariance : Prop :=
  ∀ (s : State) (x y : List Byte), s.fault = none → s.phase = .absorbing → PendingExact s →
    ∃ t u, exec (.update x.length) { s with din := x } = .next t ∧
      exec (.update y.length) { t with din := y } = .next u ∧
      exec (.update (x ++ y).length) { s with din := x ++ y } = .next u

/-- 10_state.md section 7 (from R63, R83 and R89): if the context holds the message m, UPDATE completes and it then holds m
followed by the payload. -/
def Obligations.UpdateExtendsMessage : Prop :=
  ∀ (s : State) (m : List Byte), s.fault = none → Absorbed s m →
    ∃ t, exec (.update s.din.length) s = .next t ∧ Ended t ∧ Absorbed t (m ++ s.din) ∧ sameHost s t

/-! ### FINAL (spec/43_final.md) -/

/-- R94 with pl ≤ 55: FINAL completes with one compression, of the pending bytes, 0x80, zeros up to offset 56 and the bit
length of the counter after step 1; it emits the digest; phase FINALIZED; the Host is as before. Buf reads as unwritten
afterwards (R31, log 3). -/
def Obligations.FinalOneBlock : Prop :=
  ∀ (s : State) (pending : List Byte), s.fault = none → s.phase = .absorbing →
    memRead s.buf 0 s.pl.toNat = some pending → s.pl.toNat ≤ 55 →
    let c := add64 s.cH s.cL (s.pl.zeroExtend 32)
    ∃ t, exec .final s = .next t ∧ Responding (serialise t.h) t ∧ t.phase = .finalized ∧
      t.cH = c.1 ∧ t.cL = c.2 ∧
      t.h = compress s.h (pending ++ 0x80 :: (zeros (55 - s.pl.toNat) ++ lengthField c.1 c.2)) ∧
      (∀ j, Memory.read t.buf j = none) ∧ sameHost s t

/-- R94 with pl ≥ 56: FINAL completes with two compressions, the first of the pending bytes, 0x80 and zeros up to the block's
end, the second of 56 zeros and the bit length. -/
def Obligations.FinalTwoBlocks : Prop :=
  ∀ (s : State) (pending : List Byte), s.fault = none → s.phase = .absorbing →
    memRead s.buf 0 s.pl.toNat = some pending → 56 ≤ s.pl.toNat →
    let c := add64 s.cH s.cL (s.pl.zeroExtend 32)
    ∃ t, exec .final s = .next t ∧ Responding (serialise t.h) t ∧ t.phase = .finalized ∧
      t.cH = c.1 ∧ t.cL = c.2 ∧
      t.h = compress (compress s.h (pending ++ 0x80 :: zeros (63 - s.pl.toNat))) (zeros 56 ++ lengthField c.1 c.2) ∧
      (∀ j, Memory.read t.buf j = none) ∧ sameHost s t

/-- R95: FINAL counts the pending bytes, C <- (C + pl) mod 2^64, and with cL a multiple of 64 no carry into cH occurs. -/
def Obligations.FinalCountsPending : Prop :=
  ∀ (s : State) (pending : List Byte), s.fault = none → s.phase = .absorbing →
    memRead s.buf 0 s.pl.toNat = some pending → ∃ t, exec .final s = .next t ∧
      (count64 t.cH t.cL).toNat = ((count64 s.cH s.cL).toNat + s.pl.toNat) % 2 ^ 64 ∧
      (s.cL.toNat % 64 = 0 → t.cH = s.cH)

/-- The zero bytes of the padded message are the fewest that fill its last block (43_final.md, from R94 and R96). -/
def Obligations.PaddingIsLeast : Prop :=
  ∀ n : Nat, (n + 1 + zeroCount n + 8) % 64 = 0 ∧ ∀ z, (n + 1 + z + 8) % 64 = 0 → zeroCount n ≤ z

/-- The padded message is a whole number of blocks: ⌈(N + 9)/64⌉ (43_final.md, from R97). -/
def Obligations.PaddedMessageBlocks : Prop :=
  ∀ m : List Byte, (paddedMessage m).length = 64 * ((m.length + 9 + 63) / 64)

/-- If the context holds the message m, FINAL completes and emits the digest of the whole padded message, and C is the
message length modulo 2^64 (from R32, R94, R95, R97 and R100). -/
def Obligations.FinalEmitsMessageDigest : Prop :=
  ∀ (s : State) (m : List Byte), s.fault = none → Absorbed s m →
    ∃ t, exec .final s = .next t ∧ Responding (messageDigest m) t ∧ t.phase = .finalized ∧
      serialise t.h = messageDigest m ∧ (count64 t.cH t.cL).toNat = m.length % 2 ^ 64 ∧ sameHost s t

/-- R124 and R1: INIT, any UPDATEs, FINAL: from every state without a recorded fault, all complete, and the response is the
digest of the chunks joined. -/
def Obligations.SessionHashesMessage : Prop :=
  ∀ (s : State) (chunks : List (List Byte)), s.fault = none →
    ∃ t u v, exec .init s = .next t ∧ absorbChunks chunks t = .next u ∧ exec .final u = .next v ∧
      v.dout = messageDigest chunks.flatten

/-! ### Faults (spec/60_exceptions.md) -/

/-- R106: a legal UPDATE or FINAL while the phase is not ABSORBING raises Misuse with its command word, changing nothing
else, whatever LEN and whatever payload has come; INIT and SIZE never raise it. -/
def Obligations.MisuseRaised : Prop :=
  ∀ s : State, s.fault = none →
    (s.phase ≠ .absorbing →
      (∀ len, ∃ t, exec (.update len) s = .next t ∧ Faulted (.misuse (encode (.update len))) s t) ∧
      ∃ t, exec .final s = .next t ∧ Faulted (.misuse 0x00000003) s t) ∧
    (∀ t, exec .init s = .next t ∨ exec .size s = .next t → t.fault = none)

/-- R107 and R108: a command word with a reserved opcode, RSV ≠ 0, or LEN ≠ 0 on INIT, FINAL or SIZE, accepted in any phase,
raises IllegalCommand with that word; nothing else changes, and the payload offered behind it is not consumed: it is still the
Host's to deliver. -/
def Obligations.IllegalCommandRaised : Prop :=
  ∀ (s : State) (w : Word) (payload : List Byte) (rest : List HostMove),
    let op := w.toNat % 16
    let rsv := w.toNat / 16 % 16
    let len := w.toNat / 256
    s.fault = none → s.ready = true → s.host = .command w payload :: rest →
    (op = 0 ∨ 5 ≤ op) ∨ rsv ≠ 0 ∨ ((op = 1 ∨ op = 3 ∨ op = 4) ∧ len ≠ 0) →
    ∃ t, step s = .next t ∧ Faulted (.illegalCommand w) s t ∧ t.host = offerAgain payload rest

/-- R105: raising a fault records it, changes nothing else and emits nothing; the state is then terminal, as is every state
with a record: no command has a step, INIT included, and no Host move but the hardware reset, which clears the record. That a
raised fault is a next state is log 8; that the reset is a step of the same run and clears the record is R121 as log 16 reads
it (R105 says the record is never cleared and a reset starts a new run). -/
def Obligations.TerminalHasNoStep : Prop :=
  (∀ (s : State) (r : FaultRecord), ∃ t, raise r s = .next t ∧ Faulted r s t ∧ Terminal r t) ∧
  ∀ (s : State) (r : FaultRecord), s.fault = some r →
    Terminal r s ∧ ∀ rest, s.host = .reset :: rest → ∃ t, step s = .next t ∧ t.fault = none

/-- The model's choice at a fault (log 9): READY stays 0, no command is in progress, the payload that had arrived is dropped. -/
def Obligations.FaultHoldsChannels : Prop :=
  (∀ (i : Instr) (s t : State), exec i s = .next t → t.fault ≠ none → t.ready = false ∧ t.cmd = none ∧ t.din = []) ∧
  (∀ s t : State, step s = .next t → t.fault ≠ none → t.ready = false ∧ t.cmd = none ∧ t.din = [])

/-- R26: the record is none at reset, is set by the first faulting command, and no step but a reset clears or changes it. -/
def Obligations.FaultRecordKept : Prop :=
  State.reset.fault = none ∧
  (∀ (s t : State) (i : Instr), exec i s = .next t →
    s.fault = none ∧ (t.fault = none ∨ t.fault = some (.misuse (encode i)))) ∧
  (∀ (s t : State), step s = .next t → (∀ rest, s.host ≠ .reset :: rest) →
    s.fault = none ∧ ∀ r, t.fault = some r →
      ∃ w, (r = .illegalCommand w ∧ ∃ e, decode w = .error e) ∨ (r = .misuse w ∧ ∃ i, decode w = .ok i))

/-! ### Reset and the handshake (spec/70_reset_and_hazards.md) -/

/-- The values 10_state.md R29 states for reset: phase UNINIT, no fault, READY = 1, RESP_PENDING = 0, every buffer byte
unwritten. (The registers R29 calls unwritten hold a value the model chose, log 1: nothing is said of them.) -/
def Obligations.ResetState : Prop :=
  State.reset.phase = .uninit ∧ State.reset.fault = none ∧ State.reset.ready = true ∧ State.reset.respPending = 0 ∧
  State.reset.cmd = none ∧ ∀ j, Memory.read State.reset.buf j = none

/-- R121 and R125: a reset asserted in any state, a terminal one included, aborts the command in progress (its payload is
not consumed, its response is discarded), sets phase UNINIT, clears the fault record, raises READY, and leaves Buf
unwritten; the Host's other moves are untouched. (Of the registers left unwritten nothing is said, log 1.) -/
def Obligations.ResetAborts : Prop :=
  ∀ (s : State) (rest : List HostMove), s.host = .reset :: rest →
    ∃ t, step s = .next t ∧ t.phase = .uninit ∧ t.fault = none ∧ t.ready = true ∧ t.respPending = 0 ∧
      t.cmd = none ∧ t.din = [] ∧ t.dout = [] ∧ (∀ j, Memory.read t.buf j = none) ∧
      t.host = rest ∧ t.received = s.received

/-- R123: after a reset, UPDATE and FINAL raise Misuse until an INIT; INIT and SIZE complete. -/
def Obligations.BootRequirement : Prop :=
  ∀ (s t : State) (rest : List HostMove), s.host = .reset :: rest → step s = .next t →
    (∀ len, ∃ u, exec (.update len) t = .next u ∧ Faulted (.misuse (encode (.update len))) t u) ∧
    (∃ u, exec .final t = .next u ∧ Faulted (.misuse (encode .final)) t u) ∧
    (∃ u, exec .size t = .next u ∧ u.fault = none) ∧ (∃ u, exec .init t = .next u ∧ u.phase = .absorbing)

/-- A step runs the decoded command: when the Host offers w with READY = 1 and w decodes to i, the step is exec of i on the
state with the word accepted: READY = 0, and on DIN the bytes the word announces, the others still the Host's to deliver
(R126, R127). State.withFetchWord makes this the next step. -/
def Obligations.StepRunsDecodedCommand : Prop :=
  (∀ (s : State) (w : Word) (payload : List Byte) (rest : List HostMove) (i : Instr),
    s.fault = none → s.ready = true → s.host = .command w payload :: rest → decode w = .ok i →
    step s = exec i { s with
      ready := false, cmd := some w, din := payload.take (lenOf i), host := offerAgain (payload.drop (lenOf i)) rest }) ∧
  (∀ (s : State) (w : Word) (i : Instr), decode w = .ok i →
    step (s.withFetchWord 32 w.toNat) = exec i { s with
      fault := none, ready := false, cmd := some w, din := zeros (lenOf i), dout := [] })

/-- R127: an UPDATE whose payload is short waits: READY = 0, nothing else changes; each further delivery runs the command
again on what has then arrived. -/
def Obligations.PayloadAwaited : Prop :=
  (∀ (s : State) (len : Nat), s.fault = none → s.phase = .absorbing → s.din.length < len →
    ∃ t, exec (.update len) s = .next t ∧ t.ready = false ∧ t.cmd = some (encode (.update len)) ∧ t.din = s.din ∧
      t.dout = s.dout ∧ t.fault = none ∧ sameContext s t ∧ sameInternals s t ∧ sameHost s t) ∧
  (∀ (s : State) (w : Word) (bytes : List Byte) (rest : List HostMove) (i : Instr),
    s.fault = none → s.cmd = some w → decode w = .ok i → bytes ≠ [] → s.host = .data bytes :: rest →
    step s = exec i { s with
      din := s.din ++ bytes.take (lenOf i - s.din.length)
      host := offerAgain (bytes.drop (lenOf i - s.din.length)) rest })

/-- The stuck states of R127 and R128: while an UPDATE waits, no Host move but data and reset has a step; while a response is
pending, none but read and reset. (A data move during a response is outside the model, D19, log 13: refused.) -/
def Obligations.StuckWithoutHost : Prop :=
  ∀ s : State, s.fault = none → s.ready = false →
    (∀ w, s.cmd = some w → s.dout = [] →
      (s.host = [] → step s = .fault .stuckPayload) ∧
      (∀ w' p rest, s.host = .command w' p :: rest → step s = .fault .stuckPayload) ∧
      (∀ rest, s.host = .read :: rest → step s = .fault .stuckRead)) ∧
    (s.cmd = none →
      (s.host = [] → step s = .fault .stuckResponse) ∧
      (∀ w' p rest, s.host = .command w' p :: rest → step s = .fault .stuckResponse) ∧
      (∀ bytes rest, bytes ≠ [] → s.host = .data bytes :: rest → step s = .refused .strayData))

/-- R128: the Host drains a response byte by byte, in the order it was emitted; READY returns with the last byte; nothing
else changes. -/
def Obligations.ResponseDrained : Prop :=
  ∀ (s : State) (rest : List HostMove), s.fault = none → s.cmd = none → s.ready = false → s.dout ≠ [] →
    s.host = List.replicate s.dout.length .read ++ rest →
    runSteps s.dout.length s =
      .next { s with dout := [], received := s.received ++ s.dout, ready := true, host := rest }

/-- R119: between commands, when the Host offers nothing, the engine is idle and keeps its whole state. -/
def Obligations.IdleKeepsState : Prop :=
  ∀ s : State, s.fault = none → s.ready = true → s.host = [] → step s = .next s

/-! ### The whole machine -/

/-- R25: the phase after a reset and after each command that has a step. -/
def Obligations.PhaseTransitions : Prop :=
  State.reset.phase = .uninit ∧
  (∀ (s t : State) (rest : List HostMove), s.host = .reset :: rest → step s = .next t → t.phase = .uninit) ∧
  ∀ (s t : State),
    (exec .init s = .next t → t.phase = .absorbing) ∧
    (∀ len, exec (.update len) s = .next t →
      t.phase = s.phase ∧ (s.phase ≠ .absorbing → t.fault = some (.misuse (encode (.update len))))) ∧
    (exec .final s = .next t →
      (s.phase = .absorbing → t.phase = .finalized) ∧
      (s.phase ≠ .absorbing → t.phase = s.phase ∧ t.fault = some (.misuse (encode .final)))) ∧
    (exec .size s = .next t → t.phase = s.phase)

/-- R15 and R85: H changes only by INIT, which loads IV, and by UPDATE and FINAL, which replace it by compressions of 64-byte
blocks; FINAL does one or two. -/
def Obligations.HashWriters : Prop :=
  ∀ (i : Instr) (s t : State), exec i s = .next t → t.fault = none →
    match i with
    | .init => t.h = iv
    | .size => t.h = s.h
    | .update _ => ∃ blocks : List (List Byte), (∀ b ∈ blocks, b.length = 64) ∧ t.h = blocks.foldl compress s.h
    | .final => ∃ blocks : List (List Byte), (blocks.length = 1 ∨ blocks.length = 2) ∧
        (∀ b ∈ blocks, b.length = 64) ∧ t.h = blocks.foldl compress s.h

/-- R36: INIT and UPDATE emit nothing, FINAL exactly 32 bytes, the digest, SIZE exactly 4; a command that raises a fault or
waits emits nothing either. The bytes leave in the order they were emitted: a read takes the first. -/
def Obligations.ResponsesByCommand : Prop :=
  (∀ (i : Instr) (s t : State), exec i s = .next t → s.dout = [] →
    (t.fault ≠ none ∨ t.cmd ≠ none → t.dout = []) ∧
    (t.fault = none → t.cmd = none →
      match i with
      | .init => t.dout = []
      | .update _ => t.dout = []
      | .final => t.dout.length = 32 ∧ t.dout = serialise t.h
      | .size => t.dout.length = 4 ∧ t.dout = bytesBE Config.ctxSize)) ∧
  ∀ (s : State) (b : Byte) (bs : List Byte) (rest : List HostMove),
    s.fault = none → s.dout = b :: bs → s.host = .read :: rest →
    ∃ t, step s = .next t ∧ t.dout = bs ∧ t.received = s.received ++ [b] ∧ t.host = rest ∧ sameContext s t

/-- The invariant of the machine: every step keeps it (R17, R18, R19, R24, R126–R128). -/
def Obligations.StepKeepsInvariant : Prop :=
  ∀ s t : State, Inv s → step s = .next t → Inv t

/-- The invariant holds right after reset. -/
def Obligations.ResetMeetsInvariant : Prop := Inv State.reset

/-- R34: the buffer keeps its canonical form, every address below 64, through every command that has a step and every
step. -/
def Obligations.BufferStaysCanonical : Prop :=
  (∀ (i : Instr) (s t : State), Memory.wf s.buf = true → exec i s = .next t → Memory.wf t.buf = true) ∧
  (∀ s t : State, Memory.wf s.buf = true → step s = .next t → Memory.wf t.buf = true)

/-- No command and no step reads an unwritten buffer byte while the invariant holds (R12, R94). -/
def Obligations.NoUnwrittenRead : Prop :=
  ∀ s : State, Inv s → (∀ i : Instr, exec i s ≠ .fault .unwrittenRead) ∧ step s ≠ .fault .unwrittenRead

/-- R50: engines share no state, so steps of different engines commute, and neither changes the other's state. -/
def Obligations.EnginesCommute : Prop :=
  ∀ (n : Nat) (j k : Fin n) (es fs gs : Vector State n), j ≠ k →
    stepEngine j es = .next fs → stepEngine k fs = .next gs →
    fs[k] = es[k] ∧ ∃ hs, stepEngine k es = .next hs ∧ stepEngine j hs = .next gs

/-! ### The Host's programs (spec/30_encoding.md section 4) -/

/-- R61: `update*` cuts a payload into consecutive slices: joined they are the payload, none is longer than 2^24 − 1 bytes,
every one but the last has exactly that many, and none of a payload longer than that is empty. R61 speaks of payloads of more
than 2^24 − 1 bytes; what the clauses say of a payload of at most that many (one slice) is the model's choice, log 20. -/
def Obligations.UpdateSlicesCoverPayload : Prop :=
  ∀ payload : List Byte,
    (updateSlices payload).flatten = payload ∧
    (∀ x ∈ updateSlices payload, x.length ≤ 2 ^ 24 - 1) ∧
    (∀ x ∈ (updateSlices payload).dropLast, x.length = 2 ^ 24 - 1) ∧
    (2 ^ 24 - 1 < payload.length → ∀ x ∈ updateSlices payload, 1 ≤ x.length)

/-- R61, R62: the pseudo-commands' expansions and the worked text of R62, as the Host issues them. -/
def Obligations.AssembledText : Prop :=
  assemble "update \"abc\" ; three bytes".toList = .ok [.command 0x00000302 [0x61, 0x62, 0x63]] ∧
  assemble "update 0x00".toList = .ok [.command 0x00000102 [0x00]] ∧
  assemble "update \"\"".toList = .ok [.command 0x00000002 []] ∧
  assemble "reinit".toList = assemble "init".toList ∧
  assemble "hash \"abc\"".toList = assemble "init\nupdate \"abc\"\nfinal".toList ∧
  assemble "init\nupdate \"abc\"\nfinal".toList =
    .ok ([.command 0x00000001 [], .command 0x00000302 [0x61, 0x62, 0x63], .command 0x00000003 []] ++
      List.replicate 32 .read)

/-! ### The message held, step by step (spec/10_state.md R32) -/

/-- R32 as an invariant of every step: if in phase ABSORBING the context holds some message, it does so after each step that
has a next state, whatever the Host's move. -/
def Obligations.StepKeepsMessage : Prop :=
  ∀ s t : State, (s.phase = .absorbing → ∃ m, Absorbed s m) → step s = .next t →
    t.phase = .absorbing → ∃ m, Absorbed t m
end

