-- ==== Sys2Proof/Laws/Memory.lean ====
section
/-! SUPPORT. The block buffer: read after write, ranges read and written, the canonical form and what keeps it
(spec/20_memory.md R34). -/

namespace Sys2Proof.Machine

/-! ### One byte -/

@[simp] theorem Memory.read_nil (j : Nat) : Memory.read [] j = none := rfl

theorem Memory.read_write_same (m : List Host.Cell) (j : Nat) (b : Byte) :
    Memory.read (Memory.write m j b) j = some b := by
  induction m with
  | nil => simp [Memory.write, Memory.read]
  | cons c m ih =>
    obtain ⟨k, v⟩ := c
    simp only [Memory.write]
    split
    · simp [Memory.read]
    · split
      · simp [Memory.read]
      · rename_i h; simp [Memory.read, Ne.symm h, ih]

theorem Memory.read_write_other (m : List Host.Cell) {j a : Nat} (b : Byte) (h : a ≠ j) :
    Memory.read (Memory.write m j b) a = Memory.read m a := by
  induction m with
  | nil => simp [Memory.write, Memory.read, Ne.symm h]
  | cons c m ih =>
    obtain ⟨k, v⟩ := c
    simp only [Memory.write]
    split
    · simp [Memory.read, Ne.symm h]
    · split
      · rename_i hk; subst hk; simp [Memory.read, Ne.symm h]
      · simp [Memory.read, ih]

theorem Memory.read_write (m : List Host.Cell) (j a : Nat) (b : Byte) :
    Memory.read (Memory.write m j b) a = if a = j then some b else Memory.read m a := by
  split
  · rename_i h; subst h; exact Memory.read_write_same m a b
  · rename_i h; exact Memory.read_write_other m b h

/-! ### Ranges -/

@[simp] theorem memWrite_nil (m : List Host.Cell) (j : Nat) : memWrite m j [] = m := rfl

theorem memWrite_append (m : List Host.Cell) (j : Nat) (xs ys : List Byte) :
    memWrite m j (xs ++ ys) = memWrite (memWrite m j xs) (j + xs.length) ys := by
  induction xs generalizing m j with
  | nil => simp
  | cons x xs ih => simp only [List.cons_append, memWrite, ih, List.length_cons]; congr 1; omega

/-- What MemWrite leaves at every address. -/
theorem read_memWrite (m : List Host.Cell) (j a : Nat) (bs : List Byte) :
    Memory.read (memWrite m j bs) a =
      if j ≤ a ∧ a < j + bs.length then bs[a - j]? else Memory.read m a := by
  induction bs generalizing m j with
  | nil => simp
  | cons b bs ih =>
    rw [memWrite, ih, Memory.read_write, List.length_cons]
    by_cases h1 : a = j
    · subst h1; simp
    · by_cases h2 : j ≤ a ∧ a < j + (bs.length + 1)
      · have e : a - j = (a - (j + 1)) + 1 := by omega
        rw [if_pos (by omega), if_pos h2, e, List.getElem?_cons_succ]
      · rw [if_neg (by omega), if_neg h1, if_neg h2]

/-- What MemRead answers: n bytes, each the byte at its address. -/
theorem memRead_eq_some (m : List Host.Cell) (j n : Nat) (bs : List Byte) :
    memRead m j n = some bs ↔ bs.length = n ∧ ∀ i, i < n → Memory.read m (j + i) = bs[i]? := by
  induction n generalizing j bs with
  | zero =>
    simp only [memRead, Option.some.injEq]
    constructor
    · rintro rfl; simp
    · rintro ⟨h, _⟩; exact (List.length_eq_zero_iff.1 h).symm
  | succ n ih =>
    simp only [memRead]
    constructor
    · intro h
      split at h
      · rename_i b cs hb hcs
        obtain rfl : b :: cs = bs := by simpa using h
        obtain ⟨hl, hr⟩ := (ih _ _).1 hcs
        refine ⟨by simp [hl], fun i hi => ?_⟩
        cases i with
        | zero => simpa using hb
        | succ i => rw [show j + (i + 1) = j + 1 + i by omega]; simpa using hr i (by omega)
      · simp at h
    · rintro ⟨hl, hr⟩
      cases bs with
      | nil => simp at hl
      | cons b cs =>
        have h0 : Memory.read m j = some b := by simpa using hr 0 (by omega)
        have h1 : memRead m (j + 1) n = some cs := by
          refine (ih _ _).2 ⟨by simpa using hl, fun i hi => ?_⟩
          have := hr (i + 1) (by omega)
          rw [show j + (i + 1) = j + 1 + i by omega] at this
          simpa using this
        rw [h0, h1]

theorem memRead_length {m : List Host.Cell} {j n : Nat} {bs : List Byte} (h : memRead m j n = some bs) :
    bs.length = n := ((memRead_eq_some m j n bs).1 h).1

@[simp] theorem memRead_zero (m : List Host.Cell) (j : Nat) : memRead m j 0 = some [] := rfl

/-- The bytes just written behind a readable prefix read back with it. -/
theorem memRead_memWrite_append {m : List Host.Cell} {n : Nat} {xs : List Byte} (ys : List Byte)
    (h : memRead m 0 n = some xs) : memRead (memWrite m n ys) 0 (n + ys.length) = some (xs ++ ys) := by
  obtain ⟨hl, hr⟩ := (memRead_eq_some _ _ _ _).1 h
  refine (memRead_eq_some _ _ _ _).2 ⟨by simp [hl], fun i hi => ?_⟩
  rw [Nat.zero_add, read_memWrite]
  by_cases hn : n ≤ i
  · rw [if_pos ⟨hn, hi⟩, List.getElem?_append_right (by omega), hl]
  · rw [if_neg (by omega), List.getElem?_append_left (by omega)]
    simpa using hr i (by omega)

/-! ### The canonical form -/

/-- The canonical form, said of the addresses alone. -/
theorem Memory.wf_iff (m : List Host.Cell) :
    Memory.wf m = true ↔ (m.map Prod.fst).Pairwise (· < ·) ∧ ∀ k ∈ m.map Prod.fst, k < bufSize := by
  induction m with
  | nil => simp [Memory.wf]
  | cons c m ih =>
    obtain ⟨k, v⟩ := c
    cases m with
    | nil => simp [Memory.wf]
    | cons c' m =>
      obtain ⟨k', v'⟩ := c'
      rw [Memory.wf, Bool.and_eq_true, ih]
      simp only [List.map_cons, List.pairwise_cons, List.mem_cons, forall_eq_or_imp, decide_eq_true_eq]
      constructor
      · rintro ⟨hk, ⟨h1, h2⟩, h3, h4⟩
        exact ⟨⟨⟨hk, fun a ha => Nat.lt_trans hk (h1 a ha)⟩, h1, h2⟩, Nat.lt_trans hk h3, h3, h4⟩
      · rintro ⟨⟨⟨hk, _⟩, h1, h2⟩, _, h3, h4⟩
        exact ⟨hk, ⟨h1, h2⟩, h3, h4⟩

/-- The addresses listed after one write. -/
theorem Memory.mem_write_keys (m : List Host.Cell) (j : Nat) (b : Byte) (k : Nat) :
    k ∈ (Memory.write m j b).map Prod.fst ↔ k = j ∨ k ∈ m.map Prod.fst := by
  induction m with
  | nil => simp [Memory.write]
  | cons c m ih =>
    obtain ⟨k', v⟩ := c
    simp only [Memory.write]
    split
    · simp
    · split
      · rename_i h; subst h; simp
      · simp only [List.map_cons, List.mem_cons, ih]; tauto

/-- A write inside the buffer keeps the canonical form. -/
theorem Memory.write_wf {m : List Host.Cell} {j : Nat} (b : Byte) (h : Memory.wf m = true) (hj : j < bufSize) :
    Memory.wf (Memory.write m j b) = true := by
  rw [Memory.wf_iff] at h ⊢
  obtain ⟨hp, hb⟩ := h
  refine ⟨?_, fun k hk => ?_⟩
  · clear hb
    induction m with
    | nil => simp [Memory.write]
    | cons c m ih =>
      obtain ⟨k, v⟩ := c
      simp only [List.map_cons, List.pairwise_cons] at hp
      simp only [Memory.write]
      split
      · rename_i hlt
        simp only [List.map_cons, List.pairwise_cons, List.mem_cons, forall_eq_or_imp]
        exact ⟨⟨hlt, fun a ha => Nat.lt_trans hlt (hp.1 a ha)⟩, hp⟩
      · split
        · rename_i he; subst he
          simpa using hp
        · simp only [List.map_cons, List.pairwise_cons]
          refine ⟨fun a ha => ?_, ih hp.2⟩
          rcases (Memory.mem_write_keys _ _ _ _).1 ha with rfl | ha
          · omega
          · exact hp.1 a ha
  · rcases (Memory.mem_write_keys _ _ _ _).1 hk with rfl | hk
    · exact hj
    · exact hb k hk

/-- Writing a range inside the buffer keeps the canonical form. -/
theorem memWrite_wf {m : List Host.Cell} {j : Nat} (bs : List Byte) (h : Memory.wf m = true)
    (hj : j + bs.length ≤ bufSize) : Memory.wf (memWrite m j bs) = true := by
  induction bs generalizing m j with
  | nil => exact h
  | cons b bs ih =>
    rw [List.length_cons] at hj
    exact ih (Memory.write_wf b h (by omega)) (by omega)

/-- A write at the first free address appends its cell. -/
theorem Memory.write_append {m : List Host.Cell} {j : Nat} (b : Byte) (h : ∀ k ∈ m.map Prod.fst, k < j) :
    Memory.write m j b = m ++ [(j, b)] := by
  induction m with
  | nil => rfl
  | cons c m ih =>
    obtain ⟨k, v⟩ := c
    simp only [List.map_cons, List.mem_cons, forall_eq_or_imp] at h
    rw [Memory.write, if_neg (by omega), if_neg (by omega), ih h.2, List.cons_append]

/-- A buffer that lists exactly 0..n−1 lists exactly 0..n+k−1 after k bytes are written at n. -/
theorem memWrite_keys {m : List Host.Cell} {n : Nat} (bs : List Byte) (h : m.map Prod.fst = List.range n) :
    (memWrite m n bs).map Prod.fst = List.range (n + bs.length) := by
  induction bs generalizing m n with
  | nil => exact h
  | cons b bs ih =>
    have hw : (Memory.write m n b).map Prod.fst = List.range (n + 1) := by
      rw [Memory.write_append b (fun k hk => List.mem_range.1 (h ▸ hk)), List.map_append, h, List.range_succ]
      rfl
    rw [memWrite, ih hw, List.length_cons]
    congr 1
    omega

/-- A listed address holds a byte. -/
theorem Memory.read_isSome (m : List Host.Cell) (j : Nat) :
    (Memory.read m j).isSome ↔ j ∈ m.map Prod.fst := by
  induction m with
  | nil => simp
  | cons c m ih =>
    obtain ⟨k, v⟩ := c
    by_cases h : k = j
    · subst h; simp [Memory.read]
    · simp [Memory.read, h, Ne.symm h]
      simpa using ih

/-- A range of listed addresses can be read. -/
theorem memRead_isSome (m : List Host.Cell) (j n : Nat) :
    (memRead m j n).isSome ↔ ∀ i, i < n → (Memory.read m (j + i)).isSome := by
  induction n generalizing j with
  | zero => simp
  | succ n ih =>
    simp only [memRead]
    constructor
    · intro h
      split at h
      · rename_i b bs hb hbs
        intro i hi
        cases i with
        | zero => simp [hb]
        | succ i =>
          rw [show j + (i + 1) = j + 1 + i by omega]
          exact (ih (j + 1)).1 (by simp [hbs]) i (by omega)
      · simp at h
    · intro h
      have h0 := h 0 (by omega)
      have h1 := (ih (j + 1)).2 (fun i hi => by
        have := h (i + 1) (by omega)
        rwa [show j + (i + 1) = j + 1 + i by omega] at this)
      obtain ⟨b, hb⟩ := Option.isSome_iff_exists.1 h0
      obtain ⟨bs, hbs⟩ := Option.isSome_iff_exists.1 h1
      simp only [Nat.add_zero] at hb
      simp [hb, hbs]

end Sys2Proof.Machine
end

