-- ==== Sys2Proof/Laws/State.lean ====
section
/-! SUPPORT. One lemma per field per named update of the state, each true by unfolding it once, so that no later proof unfolds
a record update. -/

namespace Sys2Proof.Machine

/-! ### addCount -/

@[simp] theorem addCount_h (n : Word) (s : State) : (addCount n s).h = s.h := rfl
@[simp] theorem addCount_cH (n : Word) (s : State) : (addCount n s).cH = (add64 s.cH s.cL n).1 := rfl
@[simp] theorem addCount_cL (n : Word) (s : State) : (addCount n s).cL = (add64 s.cH s.cL n).2 := rfl
@[simp] theorem addCount_buf (n : Word) (s : State) : (addCount n s).buf = s.buf := rfl
@[simp] theorem addCount_pl (n : Word) (s : State) : (addCount n s).pl = s.pl := rfl
@[simp] theorem addCount_work (n : Word) (s : State) : (addCount n s).work = s.work := rfl
@[simp] theorem addCount_sched (n : Word) (s : State) : (addCount n s).sched = s.sched := rfl
@[simp] theorem addCount_round (n : Word) (s : State) : (addCount n s).round = s.round := rfl
@[simp] theorem addCount_phase (n : Word) (s : State) : (addCount n s).phase = s.phase := rfl
@[simp] theorem addCount_fault (n : Word) (s : State) : (addCount n s).fault = s.fault := rfl
@[simp] theorem addCount_ready (n : Word) (s : State) : (addCount n s).ready = s.ready := rfl
@[simp] theorem addCount_cmd (n : Word) (s : State) : (addCount n s).cmd = s.cmd := rfl
@[simp] theorem addCount_din (n : Word) (s : State) : (addCount n s).din = s.din := rfl
@[simp] theorem addCount_dout (n : Word) (s : State) : (addCount n s).dout = s.dout := rfl
@[simp] theorem addCount_host (n : Word) (s : State) : (addCount n s).host = s.host := rfl
@[simp] theorem addCount_received (n : Word) (s : State) : (addCount n s).received = s.received := rfl
@[simp] theorem addCount_free (n : Word) (s : State) : (addCount n s).free = s.free := rfl

/-! ### compressInto -/

@[simp] theorem compressInto_h (block : List Byte) (s : State) : (compressInto block s).h = compress s.h block := rfl
@[simp] theorem compressInto_cH (block : List Byte) (s : State) : (compressInto block s).cH = s.cH := rfl
@[simp] theorem compressInto_cL (block : List Byte) (s : State) : (compressInto block s).cL = s.cL := rfl
@[simp] theorem compressInto_buf (block : List Byte) (s : State) : (compressInto block s).buf = s.buf := rfl
@[simp] theorem compressInto_pl (block : List Byte) (s : State) : (compressInto block s).pl = s.pl := rfl
@[simp] theorem compressInto_work (block : List Byte) (s : State) :
    (compressInto block s).work = Config.freeWork s.free := rfl
@[simp] theorem compressInto_sched (block : List Byte) (s : State) :
    (compressInto block s).sched = Config.freeSched s.free := rfl
@[simp] theorem compressInto_round (block : List Byte) (s : State) :
    (compressInto block s).round = Config.freeRound s.free := rfl
@[simp] theorem compressInto_phase (block : List Byte) (s : State) : (compressInto block s).phase = s.phase := rfl
@[simp] theorem compressInto_fault (block : List Byte) (s : State) : (compressInto block s).fault = s.fault := rfl
@[simp] theorem compressInto_ready (block : List Byte) (s : State) : (compressInto block s).ready = s.ready := rfl
@[simp] theorem compressInto_cmd (block : List Byte) (s : State) : (compressInto block s).cmd = s.cmd := rfl
@[simp] theorem compressInto_din (block : List Byte) (s : State) : (compressInto block s).din = s.din := rfl
@[simp] theorem compressInto_dout (block : List Byte) (s : State) : (compressInto block s).dout = s.dout := rfl
@[simp] theorem compressInto_host (block : List Byte) (s : State) : (compressInto block s).host = s.host := rfl
@[simp] theorem compressInto_received (block : List Byte) (s : State) :
    (compressInto block s).received = s.received := rfl
@[simp] theorem compressInto_free (block : List Byte) (s : State) : (compressInto block s).free = s.free + 1 := rfl

/-! ### emptyBuffer -/

@[simp] theorem emptyBuffer_h (s : State) : (emptyBuffer s).h = s.h := rfl
@[simp] theorem emptyBuffer_cH (s : State) : (emptyBuffer s).cH = s.cH := rfl
@[simp] theorem emptyBuffer_cL (s : State) : (emptyBuffer s).cL = s.cL := rfl
@[simp] theorem emptyBuffer_buf (s : State) : (emptyBuffer s).buf = [] := rfl
@[simp] theorem emptyBuffer_pl (s : State) : (emptyBuffer s).pl = 0 := rfl
@[simp] theorem emptyBuffer_work (s : State) : (emptyBuffer s).work = s.work := rfl
@[simp] theorem emptyBuffer_sched (s : State) : (emptyBuffer s).sched = s.sched := rfl
@[simp] theorem emptyBuffer_round (s : State) : (emptyBuffer s).round = s.round := rfl
@[simp] theorem emptyBuffer_phase (s : State) : (emptyBuffer s).phase = s.phase := rfl
@[simp] theorem emptyBuffer_fault (s : State) : (emptyBuffer s).fault = s.fault := rfl
@[simp] theorem emptyBuffer_ready (s : State) : (emptyBuffer s).ready = s.ready := rfl
@[simp] theorem emptyBuffer_cmd (s : State) : (emptyBuffer s).cmd = s.cmd := rfl
@[simp] theorem emptyBuffer_din (s : State) : (emptyBuffer s).din = s.din := rfl
@[simp] theorem emptyBuffer_dout (s : State) : (emptyBuffer s).dout = s.dout := rfl
@[simp] theorem emptyBuffer_host (s : State) : (emptyBuffer s).host = s.host := rfl
@[simp] theorem emptyBuffer_received (s : State) : (emptyBuffer s).received = s.received := rfl
@[simp] theorem emptyBuffer_free (s : State) : (emptyBuffer s).free = s.free := rfl

/-! ### complete -/

@[simp] theorem complete_h (r : List Byte) (s : State) : (complete r s).h = s.h := rfl
@[simp] theorem complete_cH (r : List Byte) (s : State) : (complete r s).cH = s.cH := rfl
@[simp] theorem complete_cL (r : List Byte) (s : State) : (complete r s).cL = s.cL := rfl
@[simp] theorem complete_buf (r : List Byte) (s : State) : (complete r s).buf = s.buf := rfl
@[simp] theorem complete_pl (r : List Byte) (s : State) : (complete r s).pl = s.pl := rfl
@[simp] theorem complete_work (r : List Byte) (s : State) : (complete r s).work = s.work := rfl
@[simp] theorem complete_sched (r : List Byte) (s : State) : (complete r s).sched = s.sched := rfl
@[simp] theorem complete_round (r : List Byte) (s : State) : (complete r s).round = s.round := rfl
@[simp] theorem complete_phase (r : List Byte) (s : State) : (complete r s).phase = s.phase := rfl
@[simp] theorem complete_fault (r : List Byte) (s : State) : (complete r s).fault = s.fault := rfl
@[simp] theorem complete_ready (r : List Byte) (s : State) : (complete r s).ready = r.isEmpty := rfl
@[simp] theorem complete_cmd (r : List Byte) (s : State) : (complete r s).cmd = none := rfl
@[simp] theorem complete_din (r : List Byte) (s : State) : (complete r s).din = [] := rfl
@[simp] theorem complete_dout (r : List Byte) (s : State) : (complete r s).dout = r := rfl
@[simp] theorem complete_host (r : List Byte) (s : State) : (complete r s).host = s.host := rfl
@[simp] theorem complete_received (r : List Byte) (s : State) : (complete r s).received = s.received := rfl
@[simp] theorem complete_free (r : List Byte) (s : State) : (complete r s).free = s.free := rfl

/-! ### awaitPayload -/

@[simp] theorem awaitPayload_h (w : Word) (s : State) : (awaitPayload w s).h = s.h := rfl
@[simp] theorem awaitPayload_cH (w : Word) (s : State) : (awaitPayload w s).cH = s.cH := rfl
@[simp] theorem awaitPayload_cL (w : Word) (s : State) : (awaitPayload w s).cL = s.cL := rfl
@[simp] theorem awaitPayload_buf (w : Word) (s : State) : (awaitPayload w s).buf = s.buf := rfl
@[simp] theorem awaitPayload_pl (w : Word) (s : State) : (awaitPayload w s).pl = s.pl := rfl
@[simp] theorem awaitPayload_work (w : Word) (s : State) : (awaitPayload w s).work = s.work := rfl
@[simp] theorem awaitPayload_sched (w : Word) (s : State) : (awaitPayload w s).sched = s.sched := rfl
@[simp] theorem awaitPayload_round (w : Word) (s : State) : (awaitPayload w s).round = s.round := rfl
@[simp] theorem awaitPayload_phase (w : Word) (s : State) : (awaitPayload w s).phase = s.phase := rfl
@[simp] theorem awaitPayload_fault (w : Word) (s : State) : (awaitPayload w s).fault = s.fault := rfl
@[simp] theorem awaitPayload_ready (w : Word) (s : State) : (awaitPayload w s).ready = false := rfl
@[simp] theorem awaitPayload_cmd (w : Word) (s : State) : (awaitPayload w s).cmd = some w := rfl
@[simp] theorem awaitPayload_din (w : Word) (s : State) : (awaitPayload w s).din = s.din := rfl
@[simp] theorem awaitPayload_dout (w : Word) (s : State) : (awaitPayload w s).dout = s.dout := rfl
@[simp] theorem awaitPayload_host (w : Word) (s : State) : (awaitPayload w s).host = s.host := rfl
@[simp] theorem awaitPayload_received (w : Word) (s : State) : (awaitPayload w s).received = s.received := rfl
@[simp] theorem awaitPayload_free (w : Word) (s : State) : (awaitPayload w s).free = s.free := rfl

/-! ### recordFault -/

@[simp] theorem recordFault_h (r : FaultRecord) (s : State) : (recordFault r s).h = s.h := rfl
@[simp] theorem recordFault_cH (r : FaultRecord) (s : State) : (recordFault r s).cH = s.cH := rfl
@[simp] theorem recordFault_cL (r : FaultRecord) (s : State) : (recordFault r s).cL = s.cL := rfl
@[simp] theorem recordFault_buf (r : FaultRecord) (s : State) : (recordFault r s).buf = s.buf := rfl
@[simp] theorem recordFault_pl (r : FaultRecord) (s : State) : (recordFault r s).pl = s.pl := rfl
@[simp] theorem recordFault_work (r : FaultRecord) (s : State) : (recordFault r s).work = s.work := rfl
@[simp] theorem recordFault_sched (r : FaultRecord) (s : State) : (recordFault r s).sched = s.sched := rfl
@[simp] theorem recordFault_round (r : FaultRecord) (s : State) : (recordFault r s).round = s.round := rfl
@[simp] theorem recordFault_phase (r : FaultRecord) (s : State) : (recordFault r s).phase = s.phase := rfl
@[simp] theorem recordFault_fault (r : FaultRecord) (s : State) : (recordFault r s).fault = some r := rfl
@[simp] theorem recordFault_ready (r : FaultRecord) (s : State) : (recordFault r s).ready = false := rfl
@[simp] theorem recordFault_cmd (r : FaultRecord) (s : State) : (recordFault r s).cmd = none := rfl
@[simp] theorem recordFault_din (r : FaultRecord) (s : State) : (recordFault r s).din = [] := rfl
@[simp] theorem recordFault_dout (r : FaultRecord) (s : State) : (recordFault r s).dout = s.dout := rfl
@[simp] theorem recordFault_host (r : FaultRecord) (s : State) : (recordFault r s).host = s.host := rfl
@[simp] theorem recordFault_received (r : FaultRecord) (s : State) : (recordFault r s).received = s.received := rfl
@[simp] theorem recordFault_free (r : FaultRecord) (s : State) : (recordFault r s).free = s.free := rfl

/-! ### initContext -/

@[simp] theorem initContext_h (s : State) : (initContext s).h = iv := rfl
@[simp] theorem initContext_cH (s : State) : (initContext s).cH = 0 := rfl
@[simp] theorem initContext_cL (s : State) : (initContext s).cL = 0 := rfl
@[simp] theorem initContext_buf (s : State) : (initContext s).buf = [] := rfl
@[simp] theorem initContext_pl (s : State) : (initContext s).pl = 0 := rfl
@[simp] theorem initContext_work (s : State) : (initContext s).work = s.work := rfl
@[simp] theorem initContext_sched (s : State) : (initContext s).sched = s.sched := rfl
@[simp] theorem initContext_round (s : State) : (initContext s).round = s.round := rfl
@[simp] theorem initContext_phase (s : State) : (initContext s).phase = .absorbing := rfl
@[simp] theorem initContext_fault (s : State) : (initContext s).fault = s.fault := rfl
@[simp] theorem initContext_ready (s : State) : (initContext s).ready = s.ready := rfl
@[simp] theorem initContext_cmd (s : State) : (initContext s).cmd = s.cmd := rfl
@[simp] theorem initContext_din (s : State) : (initContext s).din = s.din := rfl
@[simp] theorem initContext_dout (s : State) : (initContext s).dout = s.dout := rfl
@[simp] theorem initContext_host (s : State) : (initContext s).host = s.host := rfl
@[simp] theorem initContext_received (s : State) : (initContext s).received = s.received := rfl
@[simp] theorem initContext_free (s : State) : (initContext s).free = s.free := rfl

/-! ### absorbBlock -/

@[simp] theorem absorbBlock_h (block : List Byte) (s : State) : (absorbBlock block s).h = compress s.h block := rfl
@[simp] theorem absorbBlock_cH (block : List Byte) (s : State) :
    (absorbBlock block s).cH = (add64 s.cH s.cL 64).1 := rfl
@[simp] theorem absorbBlock_cL (block : List Byte) (s : State) :
    (absorbBlock block s).cL = (add64 s.cH s.cL 64).2 := rfl
@[simp] theorem absorbBlock_buf (block : List Byte) (s : State) : (absorbBlock block s).buf = s.buf := rfl
@[simp] theorem absorbBlock_pl (block : List Byte) (s : State) : (absorbBlock block s).pl = s.pl := rfl
@[simp] theorem absorbBlock_work (block : List Byte) (s : State) :
    (absorbBlock block s).work = Config.freeWork s.free := rfl
@[simp] theorem absorbBlock_sched (block : List Byte) (s : State) :
    (absorbBlock block s).sched = Config.freeSched s.free := rfl
@[simp] theorem absorbBlock_round (block : List Byte) (s : State) :
    (absorbBlock block s).round = Config.freeRound s.free := rfl
@[simp] theorem absorbBlock_phase (block : List Byte) (s : State) : (absorbBlock block s).phase = s.phase := rfl
@[simp] theorem absorbBlock_fault (block : List Byte) (s : State) : (absorbBlock block s).fault = s.fault := rfl
@[simp] theorem absorbBlock_ready (block : List Byte) (s : State) : (absorbBlock block s).ready = s.ready := rfl
@[simp] theorem absorbBlock_cmd (block : List Byte) (s : State) : (absorbBlock block s).cmd = s.cmd := rfl
@[simp] theorem absorbBlock_din (block : List Byte) (s : State) : (absorbBlock block s).din = s.din := rfl
@[simp] theorem absorbBlock_dout (block : List Byte) (s : State) : (absorbBlock block s).dout = s.dout := rfl
@[simp] theorem absorbBlock_host (block : List Byte) (s : State) : (absorbBlock block s).host = s.host := rfl
@[simp] theorem absorbBlock_received (block : List Byte) (s : State) :
    (absorbBlock block s).received = s.received := rfl
@[simp] theorem absorbBlock_free (block : List Byte) (s : State) : (absorbBlock block s).free = s.free + 1 := rfl

/-! ### appendBytes -/

@[simp] theorem appendBytes_h (bs : List Byte) (s : State) : (appendBytes bs s).h = s.h := rfl
@[simp] theorem appendBytes_cH (bs : List Byte) (s : State) : (appendBytes bs s).cH = s.cH := rfl
@[simp] theorem appendBytes_cL (bs : List Byte) (s : State) : (appendBytes bs s).cL = s.cL := rfl
@[simp] theorem appendBytes_buf (bs : List Byte) (s : State) :
    (appendBytes bs s).buf = memWrite s.buf s.pl.toNat bs := rfl
@[simp] theorem appendBytes_pl (bs : List Byte) (s : State) :
    (appendBytes bs s).pl = BitVec.ofNat 6 (s.pl.toNat + bs.length) := rfl
@[simp] theorem appendBytes_work (bs : List Byte) (s : State) : (appendBytes bs s).work = s.work := rfl
@[simp] theorem appendBytes_sched (bs : List Byte) (s : State) : (appendBytes bs s).sched = s.sched := rfl
@[simp] theorem appendBytes_round (bs : List Byte) (s : State) : (appendBytes bs s).round = s.round := rfl
@[simp] theorem appendBytes_phase (bs : List Byte) (s : State) : (appendBytes bs s).phase = s.phase := rfl
@[simp] theorem appendBytes_fault (bs : List Byte) (s : State) : (appendBytes bs s).fault = s.fault := rfl
@[simp] theorem appendBytes_ready (bs : List Byte) (s : State) : (appendBytes bs s).ready = s.ready := rfl
@[simp] theorem appendBytes_cmd (bs : List Byte) (s : State) : (appendBytes bs s).cmd = s.cmd := rfl
@[simp] theorem appendBytes_din (bs : List Byte) (s : State) : (appendBytes bs s).din = s.din := rfl
@[simp] theorem appendBytes_dout (bs : List Byte) (s : State) : (appendBytes bs s).dout = s.dout := rfl
@[simp] theorem appendBytes_host (bs : List Byte) (s : State) : (appendBytes bs s).host = s.host := rfl
@[simp] theorem appendBytes_received (bs : List Byte) (s : State) : (appendBytes bs s).received = s.received := rfl
@[simp] theorem appendBytes_free (bs : List Byte) (s : State) : (appendBytes bs s).free = s.free := rfl

/-! ### padStart -/

@[simp] theorem padStart_h (s : State) : (padStart s).h = s.h := rfl
@[simp] theorem padStart_cH (s : State) : (padStart s).cH = (add64 s.cH s.cL (s.pl.zeroExtend 32)).1 := rfl
@[simp] theorem padStart_cL (s : State) : (padStart s).cL = (add64 s.cH s.cL (s.pl.zeroExtend 32)).2 := rfl
@[simp] theorem padStart_buf (s : State) : (padStart s).buf = Memory.write s.buf s.pl.toNat 0x80 := rfl
@[simp] theorem padStart_pl (s : State) : (padStart s).pl = s.pl := rfl
@[simp] theorem padStart_work (s : State) : (padStart s).work = s.work := rfl
@[simp] theorem padStart_sched (s : State) : (padStart s).sched = s.sched := rfl
@[simp] theorem padStart_round (s : State) : (padStart s).round = s.round := rfl
@[simp] theorem padStart_phase (s : State) : (padStart s).phase = s.phase := rfl
@[simp] theorem padStart_fault (s : State) : (padStart s).fault = s.fault := rfl
@[simp] theorem padStart_ready (s : State) : (padStart s).ready = s.ready := rfl
@[simp] theorem padStart_cmd (s : State) : (padStart s).cmd = s.cmd := rfl
@[simp] theorem padStart_din (s : State) : (padStart s).din = s.din := rfl
@[simp] theorem padStart_dout (s : State) : (padStart s).dout = s.dout := rfl
@[simp] theorem padStart_host (s : State) : (padStart s).host = s.host := rfl
@[simp] theorem padStart_received (s : State) : (padStart s).received = s.received := rfl
@[simp] theorem padStart_free (s : State) : (padStart s).free = s.free := rfl

/-! ### retire -/

@[simp] theorem retire_h (s : State) : (retire s).h = s.h := rfl
@[simp] theorem retire_cH (s : State) : (retire s).cH = s.cH := rfl
@[simp] theorem retire_cL (s : State) : (retire s).cL = s.cL := rfl
@[simp] theorem retire_buf (s : State) : (retire s).buf = [] := rfl
@[simp] theorem retire_pl (s : State) : (retire s).pl = Config.freePending s.free := rfl
@[simp] theorem retire_work (s : State) : (retire s).work = s.work := rfl
@[simp] theorem retire_sched (s : State) : (retire s).sched = s.sched := rfl
@[simp] theorem retire_round (s : State) : (retire s).round = s.round := rfl
@[simp] theorem retire_phase (s : State) : (retire s).phase = .finalized := rfl
@[simp] theorem retire_fault (s : State) : (retire s).fault = s.fault := rfl
@[simp] theorem retire_ready (s : State) : (retire s).ready = s.ready := rfl
@[simp] theorem retire_cmd (s : State) : (retire s).cmd = s.cmd := rfl
@[simp] theorem retire_din (s : State) : (retire s).din = s.din := rfl
@[simp] theorem retire_dout (s : State) : (retire s).dout = s.dout := rfl
@[simp] theorem retire_host (s : State) : (retire s).host = s.host := rfl
@[simp] theorem retire_received (s : State) : (retire s).received = s.received := rfl
@[simp] theorem retire_free (s : State) : (retire s).free = s.free + 1 := rfl

/-! ### hardwareReset -/

@[simp] theorem hardwareReset_h (s : State) : (hardwareReset s).h = State.reset.h := rfl
@[simp] theorem hardwareReset_cH (s : State) : (hardwareReset s).cH = State.reset.cH := rfl
@[simp] theorem hardwareReset_cL (s : State) : (hardwareReset s).cL = State.reset.cL := rfl
@[simp] theorem hardwareReset_buf (s : State) : (hardwareReset s).buf = State.reset.buf := rfl
@[simp] theorem hardwareReset_pl (s : State) : (hardwareReset s).pl = State.reset.pl := rfl
@[simp] theorem hardwareReset_work (s : State) : (hardwareReset s).work = State.reset.work := rfl
@[simp] theorem hardwareReset_sched (s : State) : (hardwareReset s).sched = State.reset.sched := rfl
@[simp] theorem hardwareReset_round (s : State) : (hardwareReset s).round = State.reset.round := rfl
@[simp] theorem hardwareReset_phase (s : State) : (hardwareReset s).phase = State.reset.phase := rfl
@[simp] theorem hardwareReset_fault (s : State) : (hardwareReset s).fault = State.reset.fault := rfl
@[simp] theorem hardwareReset_ready (s : State) : (hardwareReset s).ready = State.reset.ready := rfl
@[simp] theorem hardwareReset_cmd (s : State) : (hardwareReset s).cmd = State.reset.cmd := rfl
@[simp] theorem hardwareReset_din (s : State) : (hardwareReset s).din = State.reset.din := rfl
@[simp] theorem hardwareReset_dout (s : State) : (hardwareReset s).dout = State.reset.dout := rfl
@[simp] theorem hardwareReset_host (s : State) : (hardwareReset s).host = s.host := rfl
@[simp] theorem hardwareReset_received (s : State) : (hardwareReset s).received = s.received := rfl
@[simp] theorem hardwareReset_free (s : State) : (hardwareReset s).free = s.free := rfl

/-! ### accept -/

@[simp] theorem accept_h (w : Word) (p : List Byte) (rest : List HostMove) (s : State) :
    (accept w p rest s).h = s.h := rfl
@[simp] theorem accept_cH (w : Word) (p : List Byte) (rest : List HostMove) (s : State) :
    (accept w p rest s).cH = s.cH := rfl
@[simp] theorem accept_cL (w : Word) (p : List Byte) (rest : List HostMove) (s : State) :
    (accept w p rest s).cL = s.cL := rfl
@[simp] theorem accept_buf (w : Word) (p : List Byte) (rest : List HostMove) (s : State) :
    (accept w p rest s).buf = s.buf := rfl
@[simp] theorem accept_pl (w : Word) (p : List Byte) (rest : List HostMove) (s : State) :
    (accept w p rest s).pl = s.pl := rfl
@[simp] theorem accept_work (w : Word) (p : List Byte) (rest : List HostMove) (s : State) :
    (accept w p rest s).work = s.work := rfl
@[simp] theorem accept_sched (w : Word) (p : List Byte) (rest : List HostMove) (s : State) :
    (accept w p rest s).sched = s.sched := rfl
@[simp] theorem accept_round (w : Word) (p : List Byte) (rest : List HostMove) (s : State) :
    (accept w p rest s).round = s.round := rfl
@[simp] theorem accept_phase (w : Word) (p : List Byte) (rest : List HostMove) (s : State) :
    (accept w p rest s).phase = s.phase := rfl
@[simp] theorem accept_fault (w : Word) (p : List Byte) (rest : List HostMove) (s : State) :
    (accept w p rest s).fault = s.fault := rfl
@[simp] theorem accept_ready (w : Word) (p : List Byte) (rest : List HostMove) (s : State) :
    (accept w p rest s).ready = false := rfl
@[simp] theorem accept_cmd (w : Word) (p : List Byte) (rest : List HostMove) (s : State) :
    (accept w p rest s).cmd = some w := rfl
@[simp] theorem accept_din (w : Word) (p : List Byte) (rest : List HostMove) (s : State) :
    (accept w p rest s).din = p.take (payloadLength w) := rfl
@[simp] theorem accept_dout (w : Word) (p : List Byte) (rest : List HostMove) (s : State) :
    (accept w p rest s).dout = s.dout := rfl
@[simp] theorem accept_host (w : Word) (p : List Byte) (rest : List HostMove) (s : State) :
    (accept w p rest s).host = offerAgain (p.drop (payloadLength w)) rest := rfl
@[simp] theorem accept_received (w : Word) (p : List Byte) (rest : List HostMove) (s : State) :
    (accept w p rest s).received = s.received := rfl
@[simp] theorem accept_free (w : Word) (p : List Byte) (rest : List HostMove) (s : State) :
    (accept w p rest s).free = s.free := rfl

/-! ### receive -/

@[simp] theorem receive_h (w : Word) (p : List Byte) (rest : List HostMove) (s : State) :
    (receive w p rest s).h = s.h := rfl
@[simp] theorem receive_cH (w : Word) (p : List Byte) (rest : List HostMove) (s : State) :
    (receive w p rest s).cH = s.cH := rfl
@[simp] theorem receive_cL (w : Word) (p : List Byte) (rest : List HostMove) (s : State) :
    (receive w p rest s).cL = s.cL := rfl
@[simp] theorem receive_buf (w : Word) (p : List Byte) (rest : List HostMove) (s : State) :
    (receive w p rest s).buf = s.buf := rfl
@[simp] theorem receive_pl (w : Word) (p : List Byte) (rest : List HostMove) (s : State) :
    (receive w p rest s).pl = s.pl := rfl
@[simp] theorem receive_work (w : Word) (p : List Byte) (rest : List HostMove) (s : State) :
    (receive w p rest s).work = s.work := rfl
@[simp] theorem receive_sched (w : Word) (p : List Byte) (rest : List HostMove) (s : State) :
    (receive w p rest s).sched = s.sched := rfl
@[simp] theorem receive_round (w : Word) (p : List Byte) (rest : List HostMove) (s : State) :
    (receive w p rest s).round = s.round := rfl
@[simp] theorem receive_phase (w : Word) (p : List Byte) (rest : List HostMove) (s : State) :
    (receive w p rest s).phase = s.phase := rfl
@[simp] theorem receive_fault (w : Word) (p : List Byte) (rest : List HostMove) (s : State) :
    (receive w p rest s).fault = s.fault := rfl
@[simp] theorem receive_ready (w : Word) (p : List Byte) (rest : List HostMove) (s : State) :
    (receive w p rest s).ready = s.ready := rfl
@[simp] theorem receive_cmd (w : Word) (p : List Byte) (rest : List HostMove) (s : State) :
    (receive w p rest s).cmd = s.cmd := rfl
@[simp] theorem receive_din (w : Word) (p : List Byte) (rest : List HostMove) (s : State) :
    (receive w p rest s).din = s.din ++ p.take (payloadLength w - s.din.length) := rfl
@[simp] theorem receive_dout (w : Word) (p : List Byte) (rest : List HostMove) (s : State) :
    (receive w p rest s).dout = s.dout := rfl
@[simp] theorem receive_host (w : Word) (p : List Byte) (rest : List HostMove) (s : State) :
    (receive w p rest s).host = offerAgain (p.drop (payloadLength w - s.din.length)) rest := rfl
@[simp] theorem receive_received (w : Word) (p : List Byte) (rest : List HostMove) (s : State) :
    (receive w p rest s).received = s.received := rfl
@[simp] theorem receive_free (w : Word) (p : List Byte) (rest : List HostMove) (s : State) :
    (receive w p rest s).free = s.free := rfl

/-! ### offerWord -/

@[simp] theorem offerWord_h (w : Word) (s : State) : (offerWord w s).h = s.h := rfl
@[simp] theorem offerWord_cH (w : Word) (s : State) : (offerWord w s).cH = s.cH := rfl
@[simp] theorem offerWord_cL (w : Word) (s : State) : (offerWord w s).cL = s.cL := rfl
@[simp] theorem offerWord_buf (w : Word) (s : State) : (offerWord w s).buf = s.buf := rfl
@[simp] theorem offerWord_pl (w : Word) (s : State) : (offerWord w s).pl = s.pl := rfl
@[simp] theorem offerWord_work (w : Word) (s : State) : (offerWord w s).work = s.work := rfl
@[simp] theorem offerWord_sched (w : Word) (s : State) : (offerWord w s).sched = s.sched := rfl
@[simp] theorem offerWord_round (w : Word) (s : State) : (offerWord w s).round = s.round := rfl
@[simp] theorem offerWord_phase (w : Word) (s : State) : (offerWord w s).phase = s.phase := rfl
@[simp] theorem offerWord_fault (w : Word) (s : State) : (offerWord w s).fault = none := rfl
@[simp] theorem offerWord_ready (w : Word) (s : State) : (offerWord w s).ready = true := rfl
@[simp] theorem offerWord_cmd (w : Word) (s : State) : (offerWord w s).cmd = none := rfl
@[simp] theorem offerWord_din (w : Word) (s : State) : (offerWord w s).din = [] := rfl
@[simp] theorem offerWord_dout (w : Word) (s : State) : (offerWord w s).dout = [] := rfl
@[simp] theorem offerWord_host (w : Word) (s : State) :
    (offerWord w s).host = .command w (List.replicate (payloadLength w) 0) :: s.host := rfl
@[simp] theorem offerWord_received (w : Word) (s : State) : (offerWord w s).received = s.received := rfl
@[simp] theorem offerWord_free (w : Word) (s : State) : (offerWord w s).free = s.free := rfl

end Sys2Proof.Machine
end

