-- ==== Sys2Proof/Laws/Ops.lean ====
section
/-! SUPPORT. For each shared operation, once, everything it can do: callers cite these lemmas and unfold nothing. -/

namespace Sys2Proof.Machine

/-! ### Faults and the lifecycle check -/

theorem unlessFaulted_none {s : State} (k : Host.Outcome State Fault Refusal) (h : s.fault = none) :
    unlessFaulted s k = k := by simp [unlessFaulted, h]

theorem unlessFaulted_some {s : State} {r : FaultRecord} (k : Host.Outcome State Fault Refusal)
    (h : s.fault = some r) : unlessFaulted s k = .fault (.terminal r) := by simp [unlessFaulted, h]

theorem unlessFaulted_eq_next {s t : State} {k : Host.Outcome State Fault Refusal} :
    unlessFaulted s k = .next t ↔ s.fault = none ∧ k = .next t := by
  cases h : s.fault with
  | none => simp [unlessFaulted_none k h]
  | some r => simp [unlessFaulted_some k h]

theorem requireAbsorbing_absorbing {i : Instr} {s : State} (k : Host.Outcome State Fault Refusal)
    (h : s.phase = .absorbing) : requireAbsorbing i s k = k := by simp [requireAbsorbing, h]

theorem requireAbsorbing_other {i : Instr} {s : State} (k : Host.Outcome State Fault Refusal)
    (h : s.phase ≠ .absorbing) : requireAbsorbing i s k = .next (recordFault (.misuse (encode i)) s) := by
  cases hp : s.phase with
  | absorbing => exact absurd hp h
  | uninit => simp [requireAbsorbing, hp, raise]
  | finalized => simp [requireAbsorbing, hp, raise]

theorem requireAbsorbing_eq_next {i : Instr} {s t : State} {k : Host.Outcome State Fault Refusal} :
    requireAbsorbing i s k = .next t ↔
      (s.phase = .absorbing ∧ k = .next t) ∨
      (s.phase ≠ .absorbing ∧ t = recordFault (.misuse (encode i)) s) := by
  by_cases h : s.phase = .absorbing
  · simp [requireAbsorbing_absorbing k h, h]
  · simp [requireAbsorbing_other k h, h, eq_comm]

theorem finishWith_eq_next {response : State → List Byte} {o : Option State} {t : State} :
    finishWith response o = .next t ↔ ∃ u, o = some u ∧ t = complete (response u) u := by
  cases o <;> simp [finishWith, eq_comm]

/-! ### What an operation on the context leaves alone -/

/-- The channels, the phase and the fault record: the same in both states. -/
structure SameChannels (s t : State) : Prop where
  phase : t.phase = s.phase
  fault : t.fault = s.fault
  ready : t.ready = s.ready
  cmd : t.cmd = s.cmd
  din : t.din = s.din
  dout : t.dout = s.dout
  host : t.host = s.host
  received : t.received = s.received

theorem SameChannels.rfl {s : State} : SameChannels s s := by constructor <;> exact Eq.refl _

theorem SameChannels.trans {s t u : State} (h : SameChannels s t) (k : SameChannels t u) : SameChannels s u :=
  ⟨k.phase.trans h.phase, k.fault.trans h.fault, k.ready.trans h.ready, k.cmd.trans h.cmd, k.din.trans h.din,
    k.dout.trans h.dout, k.host.trans h.host, k.received.trans h.received⟩

/-- What UPDATE and FINAL work on: the context, the internal registers and the count of free values, the same in both. -/
structure SameCore (s t : State) : Prop where
  work : t.work = s.work
  sched : t.sched = s.sched
  round : t.round = s.round
  h : t.h = s.h
  cH : t.cH = s.cH
  cL : t.cL = s.cL
  buf : t.buf = s.buf
  pl : t.pl = s.pl
  free : t.free = s.free

/-- Two states that agree on both parts are one state. -/
theorem State.eq_of_same {s t : State} (h : SameChannels s t) (k : SameCore s t) : t = s :=
  State.ext k.work k.sched k.round k.h k.cH k.cL k.buf k.pl h.phase h.fault h.ready h.cmd h.din h.dout h.host
    h.received k.free

/-! ### UPDATE -/

/-- The tail of R89 with no byte to append changes nothing. -/
@[simp] theorem appendBytes_nil (s : State) : appendBytes [] s = s := by
  simp [appendBytes]

theorem appendBytes_channels (bs : List Byte) (s : State) : SameChannels s (appendBytes bs s) := by
  constructor <;> simp

theorem absorbBlock_channels (block : List Byte) (s : State) : SameChannels s (absorbBlock block s) := by
  constructor <;> simp

theorem emptyBuffer_channels (s : State) : SameChannels s (emptyBuffer s) := by
  constructor <;> simp

/-- Appending in two pieces is appending the whole, while the buffer has room. -/
theorem appendBytes_append (xs ys : List Byte) (s : State) (h : s.pl.toNat + xs.length < 64) :
    appendBytes (xs ++ ys) s = appendBytes ys (appendBytes xs s) := by
  have hp : (appendBytes xs s).pl.toNat = s.pl.toNat + xs.length := by
    simp [Nat.mod_eq_of_lt h]
  simp only [appendBytes] at hp ⊢
  rw [hp, memWrite_append, List.length_append, Nat.add_assoc]

/-- Step (1) of R89: nothing pending, input too short to fill the block, or the block filled. -/
theorem topUp_cases (input : List Byte) (s : State) :
    (s.pl = 0 ∧ topUp input s = some (s, input)) ∨
    (s.pl ≠ 0 ∧ s.pl.toNat + input.length < 64 ∧ topUp input s = some (appendBytes input s, [])) ∨
    (s.pl ≠ 0 ∧ 64 ≤ s.pl.toNat + input.length ∧
      topUp input s =
        (memRead (memWrite s.buf s.pl.toNat (input.take (64 - s.pl.toNat))) 0 64).map
          (fun block => (emptyBuffer (absorbBlock block s), input.drop (64 - s.pl.toNat)))) := by
  have hlt := s.pl.isLt
  by_cases h0 : s.pl = 0
  · exact .inl ⟨h0, by simp [topUp, h0]⟩
  · by_cases h1 : input.length < 64 - s.pl.toNat
    · exact .inr (.inl ⟨h0, by omega, by rw [topUp, if_neg h0, bufSize, if_pos h1]⟩)
    · refine .inr (.inr ⟨h0, by omega, ?_⟩)
      simp only [topUp, h0, bufSize, h1, if_false]
      split <;> simp_all

/-- Step (2) of R89: n blocks of the input compressed in order, the counter advanced by 64 for each, the rest left. -/
theorem directBlocks_spec (n : Nat) (input : List Byte) (s : State) :
    (directBlocks n input s).2 = input.drop (64 * n) ∧
    (directBlocks n input s).1.buf = s.buf ∧ (directBlocks n input s).1.pl = s.pl ∧
    SameChannels s (directBlocks n input s).1 := by
  induction n generalizing input s with
  | zero => exact ⟨by simp [directBlocks], rfl, rfl, .rfl⟩
  | succ n ih =>
    obtain ⟨h1, h2, h3, h4⟩ := ih (input.drop bufSize) (absorbBlock (input.take bufSize) s)
    refine ⟨?_, by rw [directBlocks, h2]; simp, by rw [directBlocks, h3]; simp, ?_⟩
    · rw [directBlocks, h1, List.drop_drop, bufSize]
      congr 1
      omega
    · exact (absorbBlock_channels _ s).trans h4

theorem topUp_channels {input rest : List Byte} {s t : State} (h : topUp input s = some (t, rest)) :
    SameChannels s t := by
  rcases topUp_cases input s with ⟨-, e⟩ | ⟨-, -, e⟩ | ⟨-, -, e⟩
  · rw [e] at h
    simp only [Option.some.injEq, Prod.mk.injEq] at h
    exact h.1 ▸ .rfl
  · rw [e] at h
    simp only [Option.some.injEq, Prod.mk.injEq] at h
    exact h.1 ▸ appendBytes_channels input s
  · rw [e, Option.map_eq_some_iff] at h
    obtain ⟨block, -, hb⟩ := h
    simp only [Prod.mk.injEq] at hb
    exact hb.1 ▸ (absorbBlock_channels block s).trans (emptyBuffer_channels _)

/-- UPDATE's body touches no channel, no phase and no fault record. -/
theorem absorb_channels {input : List Byte} {s t : State} (h : absorb input s = some t) : SameChannels s t := by
  simp only [absorb] at h
  split at h
  · simp at h
  · rename_i s1 rest e
    simp only [Option.some.injEq] at h
    exact h ▸ ((topUp_channels e).trans (directBlocks_spec _ rest s1).2.2.2).trans (appendBytes_channels _ _)

theorem appendBytes_core (bs : List Byte) {s t : State} (h : SameCore s t) :
    SameCore (appendBytes bs s) (appendBytes bs t) := by
  constructor <;> simp [h.work, h.sched, h.round, h.h, h.cH, h.cL, h.buf, h.pl, h.free]

theorem absorbBlock_core (block : List Byte) {s t : State} (h : SameCore s t) :
    SameCore (absorbBlock block s) (absorbBlock block t) := by
  constructor <;> simp [h.h, h.cH, h.cL, h.buf, h.pl, h.free]

theorem emptyBuffer_core {s t : State} (h : SameCore s t) : SameCore (emptyBuffer s) (emptyBuffer t) := by
  constructor <;> simp [h.work, h.sched, h.round, h.h, h.cH, h.cL, h.free]

theorem directBlocks_core (n : Nat) (input : List Byte) {s t : State} (h : SameCore s t) :
    SameCore (directBlocks n input s).1 (directBlocks n input t).1 := by
  induction n generalizing input s t with
  | zero => exact h
  | succ n ih => exact ih _ (absorbBlock_core _ h)

/-- UPDATE's body depends on what SameCore names and on nothing else. -/
theorem absorb_core {input : List Byte} {s t u : State} (h : SameCore s t) (hs : absorb input s = some u) :
    ∃ v, absorb input t = some v ∧ SameCore u v := by
  have finish : ∀ (rest : List Byte) {s1 t1 : State}, SameCore s1 t1 →
      SameCore (appendBytes (directBlocks (rest.length / bufSize) rest s1).2 (directBlocks (rest.length / bufSize) rest s1).1)
        (appendBytes (directBlocks (rest.length / bufSize) rest t1).2 (directBlocks (rest.length / bufSize) rest t1).1) := by
    intro rest s1 t1 h1
    rw [(directBlocks_spec _ rest s1).1, (directBlocks_spec _ rest t1).1]
    exact appendBytes_core _ (directBlocks_core _ rest h1)
  rcases topUp_cases input s with ⟨h0, e⟩ | ⟨h0, h1, e⟩ | ⟨h0, h1, e⟩ <;>
    rcases topUp_cases input t with ⟨k0, f⟩ | ⟨k0, k1, f⟩ | ⟨k0, k1, f⟩ <;>
    rw [h.pl] at k0 <;> try contradiction
  · simp only [absorb, e, f, Option.some.injEq] at hs ⊢
    exact ⟨_, rfl, hs ▸ finish input h⟩
  · simp only [absorb, e, f, Option.some.injEq] at hs ⊢
    exact ⟨_, rfl, hs ▸ finish [] (appendBytes_core input h)⟩
  · rw [h.pl] at k1; omega
  · rw [h.pl] at k1; omega
  · rw [h.pl, h.buf] at f
    cases hm : memRead (memWrite s.buf s.pl.toNat (input.take (64 - s.pl.toNat))) 0 64 with
    | none => simp [absorb, e, hm] at hs
    | some block =>
      simp only [absorb, e, f, hm, Option.map_some, Option.some.injEq] at hs ⊢
      exact ⟨_, rfl, hs ▸ finish _ (emptyBuffer_core (absorbBlock_core block h))⟩

/-- What exec of an UPDATE can answer with a next state: Misuse recorded, waiting for payload, or its body done. -/
theorem execUpdate_eq_next {len : Nat} {s t : State} :
    execUpdate len s = .next t ↔ s.fault = none ∧
      ((s.phase ≠ .absorbing ∧ t = recordFault (.misuse (encode (.update len))) s) ∨
       (s.phase = .absorbing ∧ s.din.length < len ∧ t = awaitPayload (encode (.update len)) s) ∨
       (s.phase = .absorbing ∧ len ≤ s.din.length ∧
         ∃ u, absorb (s.din.take len) s = some u ∧ t = complete [] u)) := by
  rw [execUpdate, unlessFaulted_eq_next, requireAbsorbing_eq_next]
  by_cases hl : s.din.length < len
  · simp only [hl, if_true, Host.Outcome.next.injEq, Nat.not_le.2 hl, false_and, and_false, or_false, true_and]
    constructor
    · rintro ⟨hf, ⟨hp, rfl⟩ | h⟩
      · exact ⟨hf, .inr ⟨hp, rfl⟩⟩
      · exact ⟨hf, .inl h⟩
    · rintro ⟨hf, h | ⟨hp, rfl⟩⟩
      · exact ⟨hf, .inr h⟩
      · exact ⟨hf, .inl ⟨hp, rfl⟩⟩
  · simp only [hl, if_false, finishWith_eq_next, false_and, and_false, false_or, Nat.not_lt.1 hl, true_and]
    exact and_congr_right fun _ => or_comm

/-! ### FINAL -/

theorem compressBuffer_eq_some {s t : State} :
    compressBuffer s = some t ↔ ∃ block, memRead s.buf 0 64 = some block ∧ t = compressInto block s := by
  simp [compressBuffer, bufSize, eq_comm]

/-- What exec of a FINAL can answer with a next state: Misuse recorded, or its body done. -/
theorem execFinal_eq_next {s t : State} :
    execFinal s = .next t ↔ s.fault = none ∧
      ((s.phase ≠ .absorbing ∧ t = recordFault (.misuse (encode .final)) s) ∨
       (s.phase = .absorbing ∧ ∃ u, padAndCompress s = some u ∧
         t = complete (serialise (retire u).h) (retire u))) := by
  rw [execFinal, unlessFaulted_eq_next, requireAbsorbing_eq_next, finishWith_eq_next]
  simp only [Option.map_eq_some_iff]
  constructor
  · rintro ⟨hf, ⟨hp, u, ⟨v, hv, rfl⟩, rfl⟩ | h⟩
    · exact ⟨hf, .inr ⟨hp, v, hv, rfl⟩⟩
    · exact ⟨hf, .inl h⟩
  · rintro ⟨hf, h | ⟨hp, v, hv, rfl⟩⟩
    · exact ⟨hf, .inr h⟩
    · exact ⟨hf, .inl ⟨hp, _, ⟨v, hv, rfl⟩, rfl⟩⟩

/-- FINAL's body touches no channel and no fault record. -/
theorem padAndCompress_channels {s t : State} (h : padAndCompress s = some t) : SameChannels s t := by
  simp only [padAndCompress, Option.bind_eq_some_iff, closeBlock, closeMessage] at h
  obtain ⟨⟨u, j⟩, hu, ht⟩ := h
  obtain ⟨b, -, rfl⟩ := compressBuffer_eq_some.1 ht
  have hs : SameChannels s u := by
    split at hu
    · rw [Option.map_eq_some_iff] at hu
      obtain ⟨v, hv, e⟩ := hu
      obtain ⟨b', -, rfl⟩ := compressBuffer_eq_some.1 hv
      simp only [Prod.mk.injEq] at e
      obtain ⟨rfl, -⟩ := e
      constructor <;> simp
    · simp only [Option.some.injEq, Prod.mk.injEq] at hu
      obtain ⟨rfl, -⟩ := hu
      constructor <;> simp
  exact hs.trans (by constructor <;> simp)

/-! ### INIT and SIZE -/

theorem execInit_eq_next {s t : State} :
    execInit s = .next t ↔ s.fault = none ∧ t = complete [] (initContext s) := by
  rw [execInit, unlessFaulted_eq_next, Host.Outcome.next.injEq, eq_comm (a := t)]

theorem execSize_eq_next {s t : State} :
    execSize s = .next t ↔ s.fault = none ∧ t = complete (bytesBE Config.ctxSize) s := by
  rw [execSize, unlessFaulted_eq_next, Host.Outcome.next.injEq, eq_comm (a := t)]

/-! ### The channels -/

/-- What a step can answer with a next state, move by move. -/
theorem step_eq_next {s t : State} (h : step s = .next t) :
    (∃ rest, s.host = .reset :: rest ∧ takeReset rest s = .next t) ∨
    (s.fault = none ∧
      ((s.host = [] ∧ s.ready = true ∧ t = s) ∨
       (∃ w p rest, s.host = .command w p :: rest ∧ s.ready = true ∧ perform w (accept w p rest s) = .next t) ∨
       (∃ bytes rest, s.host = .data bytes :: rest ∧ takeData bytes rest s = .next t) ∨
       (∃ rest, s.host = .read :: rest ∧ takeRead rest s = .next t))) := by
  have stuck_ne : ∀ u : State, stuck u ≠ .next t := by
    intro u
    simp only [stuck]
    split <;> simp
  rw [step] at h
  split at h
  · rename_i rest e
    exact .inl ⟨rest, e, h⟩
  · rename_i w p rest e
    obtain ⟨hf, h⟩ := unlessFaulted_eq_next.1 h
    rw [takeCommand] at h
    split at h
    · rename_i hr
      exact .inr ⟨hf, .inr (.inl ⟨w, p, rest, e, hr, h⟩)⟩
    · exact absurd h (stuck_ne s)
  · rename_i bytes rest e
    obtain ⟨hf, h⟩ := unlessFaulted_eq_next.1 h
    exact .inr ⟨hf, .inr (.inr (.inl ⟨bytes, rest, e, h⟩))⟩
  · rename_i rest e
    obtain ⟨hf, h⟩ := unlessFaulted_eq_next.1 h
    exact .inr ⟨hf, .inr (.inr (.inr ⟨rest, e, h⟩))⟩
  · rename_i e
    obtain ⟨hf, h⟩ := unlessFaulted_eq_next.1 h
    rw [idle] at h
    split at h
    · rename_i hr
      simp only [Host.Outcome.next.injEq] at h
      exact .inr ⟨hf, .inl ⟨e, hr, h.symm⟩⟩
    · exact absurd h (stuck_ne s)

/-- An accepted word: a legal one runs its command, an illegal one records IllegalCommand. -/
theorem perform_eq_next {w : Word} {s t : State} :
    perform w s = .next t ↔
      (∃ i, decode w = .ok i ∧ exec i s = .next t) ∨
      ((∃ e, decode w = .error e) ∧ t = recordFault (.illegalCommand w) s) := by
  cases h : decode w with
  | ok i => simp [perform, h]
  | error e => simp [perform, h, raise, eq_comm]

end Sys2Proof.Machine
end

