-- ==== Sys2Proof/Laws/PerInstr.lean ====
section
/-! SUPPORT. A statement about every command as syntax, one lemma per constructor: the fields of its word
(spec/30_encoding.md R52, R53). -/

namespace Sys2Proof.Laws

/-- The fields of (n << 8) | OP, for n below 2^24, are OP, 0 and n. -/
theorem fields_shift_or (n : Nat) (op : BitVec 4) (h : n < lenLimit) :
    let w : Word := BitVec.ofNat 32 n <<< 8 ||| op.zeroExtend 32
    opField w = op ∧ rsvField w = 0 ∧ lenOperand w = n := by
  refine ⟨BitVec.eq_of_getLsbD_eq fun i hi => ?_, BitVec.eq_of_getLsbD_eq fun i hi => ?_, ?_⟩
  · have h8 : i < 8 := by omega
    have h32 : i < 32 := by omega
    simp [opField, hi, h8, h32]
  · have h8 : 4 + i < 8 := by omega
    have h4 : ¬ 4 + i < 4 := by omega
    simp [rsvField, hi, h8]
  · have hl : lenField (BitVec.ofNat 32 n <<< 8 ||| op.zeroExtend 32) = BitVec.ofNat 24 n := by
      refine BitVec.eq_of_getLsbD_eq fun i hi => ?_
      have h8 : ¬ 8 + i < 8 := by omega
      have h32 : 8 + i < 32 := by omega
      have hi' : i < 32 := by omega
      simp only [lenField, BitVec.getLsbD_extractLsb', BitVec.getLsbD_or, BitVec.getLsbD_shiftLeft, BitVec.getLsbD_ofNat,
        BitVec.getLsbD_setWidth,
        BitVec.getLsbD_of_ge op (8 + i) (by omega), hi, h8, h32, hi', Nat.add_sub_cancel_left, decide_true, decide_false,
        Bool.not_false, Bool.true_and, Bool.and_false, Bool.or_false]
    rw [lenOperand, hl, BitVec.toNat_ofNat]
    exact Nat.mod_eq_of_lt h

/-- The word of a well-formed command holds its opcode, RSV = 0, and its byte count. -/
def EncodedFields.Statement (i : Instr) : Prop :=
  i.WellFormed → opField (encode i) = opcode i ∧ rsvField (encode i) = 0 ∧ lenOperand (encode i) = lenOf i

/-- The common case: a byte count that fits its field. -/
theorem encodedFields_of_lt (i : Instr) (h : lenOf i < lenLimit) : EncodedFields.Statement i := by
  intro _
  exact fields_shift_or (lenOf i) (opcode i) h

theorem EncodedFields.init : EncodedFields.Statement .init := encodedFields_of_lt .init (by decide)

theorem EncodedFields.update (len : Nat) : EncodedFields.Statement (.update len) :=
  fun h => encodedFields_of_lt (.update len) (of_decide_eq_true h) h

theorem EncodedFields.final : EncodedFields.Statement .final := encodedFields_of_lt .final (by decide)

theorem EncodedFields.size : EncodedFields.Statement .size := encodedFields_of_lt .size (by decide)

end Sys2Proof.Laws
end

