-- ==== Sys2Proof/Tests/Slice0.lean ====
section
/-! SUPPORT. Small tests with expected results from spec/ (95_test_vectors.md unless said), and for every obligation with
hypotheses a witness that meets them. -/

namespace Sys2Proof.Tests

-- One theorem at a time: the kernel evaluations below each take a thread of their own otherwise.
set_option Elab.async false

open Sys2Proof.Machine

/-! ### Small states -/

/-- A state with an open message: INIT's context, no pending byte. -/
def opened : State := { State.reset with h := iv, phase := .absorbing }

/-- An open message whose pending bytes are these (fewer than 64). -/
def pending (bs : List Byte) : State := { opened with buf := memWrite [] 0 bs, pl := BitVec.ofNat 6 bs.length }

/-- "abc". -/
def abc : List Byte := [0x61, 0x62, 0x63]

/-- n times the letter a. -/
def letters (n : Nat) : List Byte := List.replicate n 0x61

/-- The padded block of "abc" (section 2.3). -/
def abcBlock : List Byte := abc ++ 0x80 :: (zeros 59 ++ [0x18])

/-- What f says of the next state; none if there is no next state. -/
def after {α : Type} (f : State → α) : Host.Outcome State Fault Refusal → Option α
  | .next t => some (f t)
  | .fault _ => none
  | .refused _ => none

/-- A state that waits for an UPDATE of three bytes, one of them received. -/
def waiting : State := { opened with ready := false, cmd := some 0x00000302, din := [0x61] }

/-- A state with two response bytes to drain. -/
def responding : State := { State.reset with ready := false, dout := [0x01, 0x02] }

/-- A state that recorded Misuse of FINAL. -/
def faulted : State := { State.reset with ready := false, fault := some (.misuse 0x00000003) }

/-! ### WellFormed: an ill-formed term is refused -/

theorem test_wellFormed_update_too_long : (Instr.update (2 ^ 24)).wellFormed = false := by decide
theorem test_wellFormed_update_longest : (Instr.update (2 ^ 24 - 1)).wellFormed = true := by decide
theorem test_wellFormed_others :
    Instr.init.wellFormed = true ∧ Instr.final.wellFormed = true ∧ Instr.size.wellFormed = true := by decide

/-! ### Decoding: words written bit by bit, LEN then RSV then OP (30_encoding.md R52, R53; section 2.1) -/

theorem test_decode_init : decode 0b000000000000000000000000_0000_0001 = .ok .init := by decide
theorem test_decode_update_zero : decode 0b000000000000000000000000_0000_0010 = .ok (.update 0) := by decide
theorem test_decode_update_three : decode 0b000000000000000000000011_0000_0010 = .ok (.update 3) := by decide
theorem test_decode_update_block : decode 0b000000000000000001000000_0000_0010 = .ok (.update 64) := by decide
theorem test_decode_update_longest : decode 0b111111111111111111111111_0000_0010 = .ok (.update 16777215) := by decide
theorem test_decode_final : decode 0b000000000000000000000000_0000_0011 = .ok .final := by decide
theorem test_decode_size : decode 0b000000000000000000000000_0000_0100 = .ok .size := by decide

theorem test_decode_reserved_opcodes :
    decode 0x00000000 = .error .reservedOpcode ∧ decode 0x00000005 = .error .reservedOpcode ∧
    decode 0x0000000F = .error .reservedOpcode := by decide
theorem test_decode_reserved_bits :
    decode 0x00000012 = .error .reservedBits ∧ decode 0x000000F1 = .error .reservedBits ∧
    decode 0x00000013 = .error .reservedBits := by decide
theorem test_decode_length_where_none :
    decode 0x00000101 = .error .nonzeroLength ∧ decode 0x00000103 = .error .nonzeroLength ∧
    decode 0xFFFFFF04 = .error .nonzeroLength := by decide

theorem test_encode : encode .init = 0x00000001 ∧ encode (.update 3) = 0x00000302 ∧
    encode (.update 16777215) = 0xFFFFFF02 ∧ encode .final = 0x00000003 ∧ encode .size = 0x00000004 := by decide

theorem test_decodeTableWord : decodeTableWord 32 0x00004002 = some (.update 64) ∧
    decodeTableWord 8 0x01 = some .init ∧ decodeTableWord 32 0x00000012 = none := by decide

/-! ### Word operators and the functions of the Compression Core (section 2.2) -/

theorem test_rotr_shr : rotr 0x00000001 1 = 0x80000000 ∧ rotr 0x12345678 8 = 0x78123456 ∧
    rotr 0x80000000 31 = 0x00000001 ∧ rotr 0x12345678 7 = 0xf02468ac ∧ shr 0x12345678 3 = 0x02468acf := by decide
theorem test_smallSigma0 : smallSigma0 0x00000001 = 0x02004000 ∧ smallSigma0 0x80000000 = 0x11002000 ∧
    smallSigma0 0x12345678 = 0xe7fce6ee ∧ smallSigma0 0x61626380 = 0x940e90ef := by decide
theorem test_smallSigma1 : smallSigma1 0x00000001 = 0x0000a000 ∧ smallSigma1 0x80000000 = 0x00205000 ∧
    smallSigma1 0x12345678 = 0xa1f78649 ∧ smallSigma1 0x61626380 = 0x7da86405 := by decide
theorem test_bigSigma0 : bigSigma0 0x00000001 = 0x40080400 ∧ bigSigma0 0x80000000 = 0x20040200 ∧
    bigSigma0 0x12345678 = 0x66146474 ∧ bigSigma0 0x61626380 = 0x8dd59276 := by decide
theorem test_bigSigma1 : bigSigma1 0x00000001 = 0x04200080 ∧ bigSigma1 0x80000000 = 0x02100040 ∧
    bigSigma1 0x12345678 = 0x3561abda ∧ bigSigma1 0x61626380 = 0xc0b865f2 := by decide
theorem test_ch : ch 0xf0f0f0f0 0xaaaaaaaa 0x55555555 = 0xa5a5a5a5 ∧ ch 0x510e527f 0x9b05688c 0x1f83d9ab = 0x1f85c98c ∧
    ch 0x12345678 0x12345678 0x9abcdef0 = 0x9abcdef8 := by decide
theorem test_maj : maj 0xf0f0f0f0 0xaaaaaaaa 0x55555555 = 0xf0f0f0f0 ∧ maj 0x510e527f 0x9b05688c 0x1f83d9ab = 0x1b0758af ∧
    maj 0xffffffff 0x12345678 0x9abcdef0 = 0x9abcdef8 := by decide

/-! ### The schedule, a round and a compression (sections 2.3 to 2.5) -/

theorem test_schedule_words : (schedule abcBlock)[0]? = some 0x61626380 ∧ (schedule abcBlock)[15]? = some 0x00000018 ∧
    (schedule abcBlock)[17]? = some 0x000f0000 ∧ (schedule abcBlock)[31]? = some 0xd3b7973b ∧
    (schedule abcBlock)[63]? = some 0x12b1edeb := by decide +kernel
theorem test_compress_blocks_of_56 :
    serialise (compress (compress iv (letters 56 ++ 0x80 :: zeros 7)) (zeros 62 ++ [0x01, 0xc0])) =
      [0xb3, 0x54, 0x39, 0xa4, 0xac, 0x6f, 0x09, 0x48, 0xb6, 0xd6, 0xf9, 0xe3, 0xc6, 0xaf, 0x0f, 0x5f,
       0x59, 0x0c, 0xe2, 0x0f, 0x1b, 0xde, 0x70, 0x90, 0xef, 0x79, 0x70, 0x68, 0x6e, 0xc6, 0x73, 0x8a] := by
  decide +kernel

/-! ### The counter and the bit length (sections 2.6 and 2.7) -/

theorem test_add64 : add64 0xffffffff 0xffffffc0 64 = (0, 0) ∧ add64 0x00000000 0xffffffc0 63 = (0, 0xffffffff) ∧
    add64 0x00000001 0x00000040 3 = (1, 0x43) := by decide
theorem test_bitLength : bitLength 0x00000000 0x20000000 = (1, 0) ∧ bitLength 0x1fffffff 0xffffffff = (0xffffffff, 0xfffffff8) ∧
    bitLength 0x20000000 0x00000000 = (0, 0) := by decide
theorem test_lengthField : lengthField 0x00000000 0xffffffff = [0, 0, 0, 7, 0xff, 0xff, 0xff, 0xf8] := by decide

/-! ### One command each (sections 2.8, 2.10, 2.12, 2.13) -/

theorem test_init_after_reset :
    after (fun t => (t.h.toList, t.cL, t.phase)) (exec .init State.reset) =
      some ([0x6a09e667, 0xbb67ae85, 0x3c6ef372, 0xa54ff53a, 0x510e527f, 0x9b05688c, 0x1f83d9ab, 0x5be0cd19], 0,
        .absorbing) := by decide +kernel
theorem test_init_abandons_pending : exec .init (pending abc) = exec .init opened := by rfl

theorem test_update_appends :
    after (fun t => (t.pl, t.cL, t.buf)) (exec (.update 3) { opened with din := abc }) =
      some (3, 0, [(0, 0x61), (1, 0x62), (2, 0x63)]) := by decide +kernel
theorem test_update_fills_with_carry :
    after (fun t => (t.pl, t.cH, t.cL))
      (exec (.update 129) { pending (letters 63) with cL := 0xffffffc0, din := letters 129 }) =
      some (0, 1, 0x80) := by decide +kernel

theorem test_final_digest_abc :
    after (fun t => t.dout) (exec .final (pending abc)) =
      some [0xba, 0x78, 0x16, 0xbf, 0x8f, 0x01, 0xcf, 0xea, 0x41, 0x41, 0x40, 0xde, 0x5d, 0xae, 0x22, 0x23,
        0xb0, 0x03, 0x61, 0xa3, 0x96, 0x17, 0x7a, 0x9c, 0xb4, 0x10, 0xff, 0x61, 0xf2, 0x00, 0x15, 0xad] := by
  decide +kernel
theorem test_final_two_blocks :
    after (fun t => (t.h[0], t.cL, t.phase)) (exec .final (pending (letters 63))) =
      some (0x7d3e74a0, 63, .finalized) := by decide +kernel

theorem test_size_four_bytes :
    after (fun t => t.dout.length) (exec .size State.reset) = some 4 := by decide +kernel
theorem test_size_keeps_phase :
    after (fun t => (t.phase, t.fault)) (exec .size State.reset) = some (.uninit, none) := by decide +kernel

theorem test_misuse_before_init :
    after (fun t => t.fault) (exec (.update 0) State.reset) = some (some (.misuse 0x00000002)) := by decide +kernel
theorem test_misuse_after_final :
    after (fun t => t.fault) (exec .final { opened with phase := .finalized }) = some (some (.misuse 0x00000003)) := by
  decide +kernel
theorem test_illegal_before_misuse :
    after (fun t => t.fault) (step { State.reset with host := [.command 0x00000013 []] }) =
      some (some (.illegalCommand 0x00000013)) := by decide +kernel

/-! ### Witnesses: the hypotheses of the obligations can be met -/

theorem witness_decodeInvertsEncode : (Instr.update 0).WellFormed ∧ (Instr.update 16777215).WellFormed := by decide
theorem witness_encodeInvertsDecode : decode 0x00000001 = .ok .init ∧ decode 0xFFFFFF02 = .ok (.update 16777215) := by
  decide
/-- Clause by clause: the words 1, 2, 0xFFFFFF02, 3 and 4, one word for each ground of Illegal, the largest LEN, and one more. -/
theorem witness_decodeByFields :
    decode 0x00000001 = .ok .init ∧ decode 0x00000002 = .ok (.update 0) ∧ decode 0xFFFFFF02 = .ok (.update 16777215) ∧
    decode 0x00000003 = .ok .final ∧ decode 0x00000004 = .ok .size ∧ (∃ e, decode 0x00000000 = .error e) ∧
    (∃ e, decode 0x00000005 = .error e) ∧ (∃ e, decode 0x00000012 = .error e) ∧ (∃ e, decode 0x00000104 = .error e) ∧
    16777215 < 2 ^ 24 ∧ 2 ^ 24 ≤ 16777216 :=
  ⟨by decide, by decide, by decide, by decide, by decide, ⟨_, rfl⟩, ⟨_, rfl⟩, ⟨_, rfl⟩, ⟨_, rfl⟩, by decide, by decide⟩
theorem witness_wordOperators : (31 : Nat) < 32 ∧ (0 : Nat) ≤ 31 ∧ (31 : Nat) ≤ 31 ∧ (1 : Nat) ≤ 1 ∧ (1 : Nat) ≤ 31 := by
  decide
theorem witness_block : abcBlock.length = 64 ∧ (0 : Nat) < 16 ∧ (15 : Nat) < 16 ∧ (16 : Nat) ≤ 16 ∧ (63 : Nat) < 64 := by
  decide
theorem witness_digestByteOrder :
    opened.phase = .absorbing ∧ (∃ t, exec .final opened = .next t) ∧ (0 : Nat) < 4 ∧ (3 : Nat) < 4 :=
  ⟨by decide, ⟨_, rfl⟩, by decide, by decide⟩
theorem witness_constants : (0 : Nat) < 8 ∧ (7 : Nat) < 8 ∧ (63 : Nat) < 64 := by decide
theorem witness_paddingIsLeast : (55 + 1 + 0 + 8) % 64 = 0 ∧ (56 + 1 + 63 + 8) % 64 = 0 := by decide

/-- No fault is recorded in the states of the other witnesses (the only hypothesis of INIT, SIZE and whole sessions). -/
theorem witness_noFault : State.reset.fault = none ∧ opened.fault = none ∧ (pending (letters 63)).fault = none := by decide

/-- UPDATE with 3 bytes pending: 3 more fit, and 61 fill the block. -/
theorem witness_updateEffect :
    (pending abc).phase = .absorbing ∧ memRead (pending abc).buf 0 (pending abc).pl.toNat = some abc ∧
    ({ pending abc with din := abc } : State).din.length = 3 ∧
    ({ pending abc with din := letters 61 } : State).din.length = 61 ∧ PendingExact (pending abc) := by
  refine ⟨by decide, by decide, by decide, by decide, ?_⟩
  unfold PendingExact
  decide
/-- The largest append, 60 bytes after 3; an address below them, one above them, and the last of them. -/
theorem witness_updateAppendFrame :
    ({ pending abc with din := letters 60 } : State).din.length = 60 ∧ (pending abc).pl.toNat + 60 < 64 ∧
    (2 < (pending abc).pl.toNat ∧ (pending abc).pl.toNat + 60 ≤ 63) ∧ 59 < 60 := by decide
theorem witness_updateZeroLength : opened.phase = .absorbing ∧ State.reset.phase ≠ .absorbing := by decide
theorem witness_pendingExact : PendingExact opened ∧ PendingExact (pending (letters 63)) := by
  unfold PendingExact
  decide
theorem witness_absorbed : Absorbed opened [] ∧ Absorbed (pending abc) abc :=
  ⟨⟨rfl, by decide, by decide, by decide, rfl⟩, ⟨rfl, by decide, by decide, by decide, rfl⟩⟩
theorem witness_finalOneBlock :
    memRead (pending (letters 55)).buf 0 (pending (letters 55)).pl.toNat = some (letters 55) ∧
    (pending (letters 55)).pl.toNat ≤ 55 ∧ (pending (letters 55)).phase = .absorbing ∧
    memRead opened.buf 0 opened.pl.toNat = some [] := by decide +kernel
theorem witness_finalTwoBlocks :
    memRead (pending (letters 56)).buf 0 (pending (letters 56)).pl.toNat = some (letters 56) ∧
    56 ≤ (pending (letters 56)).pl.toNat ∧
    memRead (pending (letters 63)).buf 0 (pending (letters 63)).pl.toNat = some (letters 63) ∧
    56 ≤ (pending (letters 63)).pl.toNat := by decide +kernel
theorem witness_finalCountsPending : (pending abc).cL.toNat % 64 = 0 := by decide

theorem witness_misuseRaised :
    State.reset.phase ≠ .absorbing ∧ ({ opened with phase := .finalized } : State).phase ≠ .absorbing ∧
    (∃ t, exec .init State.reset = .next t) ∧ ∃ t, exec .size State.reset = .next t :=
  ⟨by decide, by decide, ⟨_, rfl⟩, ⟨_, rfl⟩⟩
/-- One word for each ground at its boundary: opcodes 0, 5 and 15, RSV = 1, LEN = 1 on INIT, FINAL and SIZE. -/
theorem witness_illegalCommandRaised :
    State.reset.fault = none ∧ State.reset.ready = true ∧
    ({ State.reset with host := [.command 0x00000101 [0x61], .read] } : State).host =
      .command 0x00000101 [0x61] :: [.read] ∧
    (0 : Word).toNat % 16 = 0 ∧ 5 ≤ (5 : Word).toNat % 16 ∧ 5 ≤ (15 : Word).toNat % 16 ∧
    (0x00000012 : Word).toNat / 16 % 16 ≠ 0 ∧
    ((0x00000101 : Word).toNat % 16 = 1 ∧ (0x00000101 : Word).toNat / 256 ≠ 0) ∧
    ((0x00000103 : Word).toNat % 16 = 3 ∧ (0x00000103 : Word).toNat / 256 ≠ 0) ∧
    ((0x00000104 : Word).toNat % 16 = 4 ∧ (0x00000104 : Word).toNat / 256 ≠ 0) := by decide
theorem witness_terminal : faulted.fault = some (.misuse 0x00000003) ∧ faulted.host = [] ∧
    ({ faulted with host := [.read] } : State).host = .read :: [] ∧ HostMove.read ≠ HostMove.reset ∧
    ({ faulted with host := [.reset] } : State).host = .reset :: [] := by decide
theorem witness_faultHoldsChannels :
    (∃ t, exec .final State.reset = .next t ∧ t.fault ≠ none) ∧
    ∃ t, step { State.reset with host := [.command 0 [0x61]] } = .next t ∧ t.fault ≠ none :=
  ⟨⟨_, rfl, by decide⟩, ⟨_, rfl, by decide⟩⟩
/-- A command that records nothing, one that records Misuse, and a step that records each kind of fault. -/
theorem witness_faultRecordKept :
    (∃ t, exec .init State.reset = .next t ∧ t.fault = none) ∧
    (∃ t, exec .final State.reset = .next t ∧ t.fault = some (.misuse (encode .final))) ∧
    (∀ rest, ({ State.reset with host := [.command 0 []] } : State).host ≠ .reset :: rest) ∧
    (∃ t, step { State.reset with host := [.command 0 []] } = .next t ∧ t.fault = some (.illegalCommand 0)) ∧
    ∃ t, step { State.reset with host := [.command 3 []] } = .next t ∧ t.fault = some (.misuse 3) :=
  ⟨⟨_, rfl, rfl⟩, ⟨_, rfl, rfl⟩, by simp, ⟨_, rfl, rfl⟩, ⟨_, rfl, rfl⟩⟩

theorem witness_reset :
    ({ faulted with host := [.reset] } : State).host = .reset :: [] ∧
    ∃ t, step { waiting with host := [.reset] } = .next t := ⟨by decide, ⟨_, rfl⟩⟩
/-- An UPDATE of three bytes offered with one byte too many: one byte stays with the Host. -/
theorem witness_stepRunsDecodedCommand :
    opened.fault = none ∧ opened.ready = true ∧ decode 0x00000302 = .ok (.update 3) ∧ decode 0x00000001 = .ok .init ∧
    ({ opened with host := [.command 0x00000302 [1, 2, 3, 4]] } : State).host =
      .command 0x00000302 [1, 2, 3, 4] :: [] := by decide
theorem witness_payloadAwaited :
    waiting.fault = none ∧ waiting.phase = .absorbing ∧ waiting.din.length < 3 ∧ waiting.cmd = some 0x00000302 ∧
    decode 0x00000302 = .ok (.update 3) ∧ ([0x62] : List Byte) ≠ [] ∧
    ({ waiting with host := [.data [0x62]] } : State).host = .data [0x62] :: [] := by decide
theorem witness_stuckWhileWaiting :
    waiting.fault = none ∧ waiting.ready = false ∧ waiting.cmd = some 0x00000302 ∧ waiting.dout = [] ∧
    waiting.host = [] ∧ ({ waiting with host := [.command 1 []] } : State).host = .command 1 [] :: [] ∧
    ({ waiting with host := [.read] } : State).host = .read :: [] := by decide
theorem witness_stuckWhileResponding :
    responding.fault = none ∧ responding.ready = false ∧ responding.cmd = none ∧ responding.host = [] ∧
    ({ responding with host := [.command 1 []] } : State).host = .command 1 [] :: [] ∧
    ({ responding with host := [.data [0x61]] } : State).host = .data [0x61] :: [] ∧ ([0x61] : List Byte) ≠ [] := by
  decide
theorem witness_responseDrained :
    responding.dout ≠ [] ∧
    ({ responding with host := [.read, .read, .reset] } : State).host =
      List.replicate responding.dout.length .read ++ [.reset] := by decide
theorem witness_read : responding.fault = none ∧ responding.dout = 0x01 :: [0x02] ∧
    ({ responding with host := [.read] } : State).host = .read :: [] := by decide
theorem witness_idle : State.reset.fault = none ∧ State.reset.ready = true ∧ State.reset.host = [] := by decide

/-- Every command has a step in phase ABSORBING, UPDATE and FINAL have one outside it. -/
theorem witness_commandSteps :
    (∃ t, exec .init opened = .next t) ∧ (∃ t, exec (.update 0) opened = .next t) ∧
    (∃ t, exec .final opened = .next t) ∧ (∃ t, exec .size opened = .next t) ∧ opened.phase = .absorbing ∧
    (∃ t, exec (.update 0) State.reset = .next t) ∧ (∃ t, exec .final State.reset = .next t) ∧
    State.reset.phase ≠ .absorbing :=
  ⟨⟨_, rfl⟩, ⟨_, rfl⟩, ⟨_, rfl⟩, ⟨_, rfl⟩, by decide, ⟨_, rfl⟩, ⟨_, rfl⟩, by decide⟩
/-- The same steps with no fault afterwards, from a state with no response pending; one that waits, one that records. -/
theorem witness_outcomes :
    opened.dout = [] ∧ (∃ t, exec .init opened = .next t ∧ t.fault = none ∧ t.cmd = none) ∧
    (∃ t, exec (.update 64) { opened with din := letters 64 } = .next t ∧ t.fault = none ∧ t.cmd = none) ∧
    (∃ t, exec .final (pending (letters 56)) = .next t ∧ t.fault = none ∧ t.cmd = none) ∧
    (∃ t, exec .size opened = .next t ∧ t.fault = none ∧ t.cmd = none) ∧
    (∃ t, exec (.update 3) { opened with din := [0x61] } = .next t ∧ t.cmd ≠ none) ∧
    (∃ t, exec .final State.reset = .next t ∧ t.fault ≠ none) :=
  ⟨rfl, ⟨_, rfl, rfl, rfl⟩, ⟨_, rfl, rfl, rfl⟩, ⟨_, rfl, rfl, rfl⟩, ⟨_, rfl, rfl, rfl⟩, ⟨_, rfl, by decide⟩,
    ⟨_, rfl, by decide⟩⟩

/-- An open message with pending bytes meets the invariant, and so does a waiting UPDATE. -/
theorem witness_inv_pending : Inv (pending abc) := by
  constructor <;> try decide
  · intro _; unfold PendingExact; decide
  · intro w h; exact absurd h (by simp [pending, opened, State.reset])
theorem witness_inv_waiting : Inv waiting := by
  constructor <;> try decide
  · intro _; unfold PendingExact; decide
  · intro w h
    obtain rfl : 0x00000302 = w := by simpa [waiting] using h
    exact ⟨by decide, by decide, by decide, 3, by decide, by decide⟩
theorem witness_step :
    Memory.wf waiting.buf = true ∧ ∃ t, step { waiting with host := [.data [0x62, 0x63]] } = .next t :=
  ⟨by decide, ⟨_, rfl⟩⟩

/-- A state that holds "abc", one that waits with nothing absorbed, and steps from both that stay in phase ABSORBING. -/
theorem witness_stepKeepsMessage :
    Absorbed { pending abc with host := [.command 0x00000102 [0x64]] } abc ∧
    (∃ t, step { pending abc with host := [.command 0x00000102 [0x64]] } = .next t ∧ t.phase = .absorbing) ∧
    Absorbed { waiting with host := [.data [0x62, 0x63]] } [] ∧
    ∃ t, step { waiting with host := [.data [0x62, 0x63]] } = .next t ∧ t.phase = .absorbing :=
  ⟨⟨rfl, by decide, by decide, by decide, rfl⟩, ⟨_, rfl, rfl⟩, ⟨rfl, by decide, by decide, by decide, rfl⟩, ⟨_, rfl, rfl⟩⟩

theorem witness_engines :
    (0 : Fin 2) ≠ 1 ∧ ∃ fs gs, stepEngine 0 (Vector.replicate 2 State.reset) = .next fs ∧ stepEngine 1 fs = .next gs :=
  ⟨by decide, ⟨_, _, rfl, rfl⟩⟩
theorem slices_ne_nil (n k : Nat) (bs : List Byte) : slices n (k + 1) bs ≠ [] := by
  rw [slices]
  split <;> simp
theorem updateSlices_long (payload : List Byte) (h : lenLimit - 1 < payload.length) :
    (∃ x, x ∈ updateSlices payload) ∧ ∃ x, x ∈ (updateSlices payload).dropLast := by
  obtain ⟨k, hk⟩ : ∃ k, payload.length = k + 1 := ⟨payload.length - 1, by omega⟩
  rw [updateSlices, slices, if_neg (Nat.not_le.2 h), hk, List.dropLast_cons_of_ne_nil (slices_ne_nil _ _ _)]
  exact ⟨⟨_, List.mem_cons_self⟩, ⟨_, List.mem_cons_self⟩⟩
theorem longPayload : ∃ payload : List Byte, lenLimit - 1 < payload.length :=
  ⟨List.replicate lenLimit 0, by rw [List.length_replicate]; decide⟩
/-- A payload longer than one UPDATE carries, its first slice, and a slice that is not the last. -/
theorem witness_updateSlices : ∃ payload : List Byte, 2 ^ 24 - 1 < payload.length ∧
    (∃ x, x ∈ updateSlices payload) ∧ ∃ x, x ∈ (updateSlices payload).dropLast := by
  obtain ⟨payload, h⟩ := longPayload
  exact ⟨payload, h, updateSlices_long payload h⟩

end Sys2Proof.Tests
end

section
/-! PROOFS. The word operators and the byte/word conversions (spec/00_scope.md R9, R10): what each operator is as a number
and bit by bit, then the two obligations about them. -/

namespace Sys2Proof.Proofs

open Sys2Proof.Machine

/-! ### The word operators (R9) -/

theorem shr_toNat (x : Word) (n : Nat) : (shr x n).toNat = x.toNat / 2 ^ n := by
  rw [shr, BitVec.toNat_ushiftRight, Nat.shiftRight_eq_div_pow]

theorem shl_toNat (x : Word) (n : Nat) : (shl x n).toNat = x.toNat * 2 ^ n % 2 ^ 32 := by
  rw [shl, BitVec.toNat_shiftLeft, Nat.shiftLeft_eq]

theorem rotr_toNat (x : Word) (n : Nat) :
    (rotr x n).toNat = (x.toNat / 2 ^ n ||| x.toNat * 2 ^ (32 - n) % 2 ^ 32) := by
  rw [rotr, BitVec.toNat_or, shr_toNat, shl_toNat]

theorem shr_getLsbD (x : Word) (n i : Nat) : (shr x n).getLsbD i = x.getLsbD (n + i) :=
  BitVec.getLsbD_ushiftRight x n i

theorem shl_getLsbD (x : Word) (n : Nat) {i : Nat} (hi : i < 32) :
    (shl x n).getLsbD i = (!decide (i < n) && x.getLsbD (i - n)) := by
  rw [shl, BitVec.getLsbD_shiftLeft, decide_eq_true hi, Bool.true_and]

/-- Below bit 32 − n only the right shift has bits, from there up only the left shift. -/
theorem rotr_getLsbD (x : Word) {n i : Nat} (hn : n ≤ 31) (hi : i < 32) :
    (rotr x n).getLsbD i = x.getLsbD ((i + n) % 32) := by
  rw [rotr, BitVec.getLsbD_or, shr_getLsbD, shl_getLsbD x (32 - n) hi]
  by_cases hlow : i < 32 - n
  · have hmod : (i + n) % 32 = n + i := by omega
    simp [hlow, hmod]
  · have hmod : (i + n) % 32 = i - (32 - n) := by omega
    have hzero : x.getLsbD (n + i) = false := BitVec.getLsbD_of_ge x (n + i) (by omega)
    simp [hlow, hmod, hzero]

/-- Settles O5: the operators of R9, each from its rule as a number or bit by bit. -/
theorem wordOperators : Obligations.WordOperators :=
  ⟨fun a b => ⟨BitVec.toNat_add a b, BitVec.not_def⟩,
    fun _ _ _ _ => ⟨BitVec.getLsbD_and, BitVec.getLsbD_or, BitVec.getLsbD_xor⟩,
    fun x n _ => ⟨shr_toNat x n, shl_toNat x n⟩,
    fun x n _ hn => ⟨rotr_toNat x n, fun _ hi => rotr_getLsbD x hn hi⟩⟩

/-! ### BE32 and BYTES_BE (R10) -/

theorem toNat_append_eq_add {m n : Nat} (x : BitVec m) (y : BitVec n) :
    (x ++ y).toNat = x.toNat * 2 ^ n + y.toNat := by
  rw [BitVec.toNat_append, ← Nat.shiftLeft_add_eq_or_of_lt y.isLt, Nat.shiftLeft_eq]

theorem be32_toNat (b0 b1 b2 b3 : Byte) :
    (be32 b0 b1 b2 b3).toNat = b0.toNat * 2 ^ 24 + b1.toNat * 2 ^ 16 + b2.toNat * 2 ^ 8 + b3.toNat := by
  rw [be32, toNat_append_eq_add, toNat_append_eq_add, toNat_append_eq_add]
  omega

/-- A field above the last byte is a field of the bytes before it, and the field at bit 0 is the last byte itself. -/
@[simp] theorem bytesBE_be32 (b0 b1 b2 b3 : Byte) : bytesBE (be32 b0 b1 b2 b3) = [b0, b1, b2, b3] := by
  simp (disch := decide) only [bytesBE, be32, BitVec.extractLsb'_append_eq_of_le, BitVec.extractLsb'_append_eq_right,
    BitVec.extractLsb'_eq_self, Nat.reduceSub]

/-- Adjacent bit fields join, one byte at a time, to all 32 bits. -/
@[simp] theorem be32_extractLsb' (w : Word) :
    be32 (w.extractLsb' 24 8) (w.extractLsb' 16 8) (w.extractLsb' 8 8) (w.extractLsb' 0 8) = w :=
  calc be32 (w.extractLsb' 24 8) (w.extractLsb' 16 8) (w.extractLsb' 8 8) (w.extractLsb' 0 8)
      = w.extractLsb' 16 16 ++ w.extractLsb' 8 8 ++ w.extractLsb' 0 8 := by
        rw [be32, BitVec.extractLsb'_append_extractLsb'_eq_extractLsb' (start₂ := 24) (start₁ := 16) rfl]
    _ = w.extractLsb' 8 24 ++ w.extractLsb' 0 8 := by
        rw [BitVec.extractLsb'_append_extractLsb'_eq_extractLsb' (start₂ := 16) (start₁ := 8) rfl]
    _ = w.extractLsb' 0 32 := BitVec.extractLsb'_append_extractLsb'_eq_extractLsb' (start₂ := 8) (start₁ := 0) rfl
    _ = w := BitVec.extractLsb'_eq_self

@[simp] theorem wordsBE_bytesBE (w : Word) : wordsBE (bytesBE w) = [w] := by
  simp only [bytesBE, wordsBE, be32_extractLsb']

/-- Settles O6: BE32 as a sum of shifted bytes, and the two conversions inverse to each other. -/
theorem bigEndianConversions : Obligations.BigEndianConversions :=
  ⟨fun b0 b1 b2 b3 => ⟨be32_toNat b0 b1 b2 b3, bytesBE_be32 b0 b1 b2 b3⟩, fun w => ⟨rfl, wordsBE_bytesBE w⟩⟩

end Sys2Proof.Proofs
end

section
/-! PROOFS. The fault record and the lifecycle phase (spec/10_state.md R25, R26): the command word decoded and encoded, what
the channels' operations leave of the hash context, what a step does, then the two obligations. -/

namespace Sys2Proof.Proofs

open Sys2Proof.Machine

/-! ### Decoding what was encoded (spec/30_encoding.md R57, R58) -/

theorem requireNoLength_eq_ok {w : Word} {i j : Instr} :
    requireNoLength w i = .ok j ↔ lenOperand w = 0 ∧ i = j := by
  have hz : lenField w = 0 ↔ lenOperand w = 0 := (BitVec.toNat_inj (y := (0 : BitVec 24))).symm
  rw [requireNoLength, ← hz]
  by_cases h : lenField w = 0
  · simp [h]
  · simp only [h, if_false, false_and, reduceCtorEq]

/-- The words that decode to a command: RSV = 0, its opcode, and its LEN. -/
theorem decode_eq_ok {w : Word} {i : Instr} :
    decode w = .ok i ↔ rsvField w = 0 ∧ opField w = opcode i ∧ lenOperand w = lenOf i := by
  rw [decode]
  split_ifs with hrsv h1 h2 h3 h4
  · exact iff_of_false (by simp) fun h => hrsv h.1
  · rw [requireNoLength_eq_ok, not_not.1 hrsv, h1]
    cases i <;> simp [opcode, lenOf]
  · rw [not_not.1 hrsv, h2]
    cases i <;> simp [opcode, lenOf]
  · rw [requireNoLength_eq_ok, not_not.1 hrsv, h3]
    cases i <;> simp [opcode, lenOf]
  · rw [requireNoLength_eq_ok, not_not.1 hrsv, h4]
    cases i <;> simp [opcode, lenOf]
  · refine iff_of_false (by simp) fun ⟨_, hop, _⟩ => ?_
    cases i with
    | init => exact h1 hop
    | update len => exact h2 hop
    | final => exact h3 hop
    | size => exact h4 hop

theorem wellFormed_of_decode {w : Word} {i : Instr} (h : decode w = .ok i) : i.WellFormed := by
  obtain ⟨-, -, hlen⟩ := decode_eq_ok.1 h
  cases i with
  | update len => exact decide_eq_true (hlen.symm.trans_lt (lenField w).isLt)
  | init | final | size => rfl

theorem decode_encode {i : Instr} (h : i.WellFormed) : decode (encode i) = .ok i := by
  have hfields : Laws.EncodedFields.Statement i := by
    cases i with
    | init => exact Laws.EncodedFields.init
    | update len => exact Laws.EncodedFields.update len
    | final => exact Laws.EncodedFields.final
    | size => exact Laws.EncodedFields.size
  obtain ⟨hop, hrsv, hlen⟩ := hfields h
  exact decode_eq_ok.2 ⟨hrsv, hop, hlen⟩

/-! ### Operations that leave the hash context alone -/

theorem complete_context (response : List Byte) (s : State) : sameContext s (complete response s) :=
  ⟨rfl, rfl, rfl, rfl, rfl, rfl⟩

theorem awaitPayload_context (w : Word) (s : State) : sameContext s (awaitPayload w s) :=
  ⟨rfl, rfl, rfl, rfl, rfl, rfl⟩

theorem recordFault_context (r : FaultRecord) (s : State) : sameContext s (recordFault r s) :=
  ⟨rfl, rfl, rfl, rfl, rfl, rfl⟩

theorem accept_context (w : Word) (payload : List Byte) (rest : List HostMove) (s : State) :
    sameContext s (accept w payload rest s) :=
  ⟨rfl, rfl, rfl, rfl, rfl, rfl⟩

theorem receive_context (w : Word) (bytes : List Byte) (rest : List HostMove) (s : State) :
    sameContext s (receive w bytes rest s) :=
  ⟨rfl, rfl, rfl, rfl, rfl, rfl⟩

/-! ### One step -/

/-- A step is a hardware reset, a move on the channels that keeps the context, or the performing of a command word on the
same context. -/
theorem step_next_cases {s t : State} (h : step s = .next t) :
    (∃ rest, s.host = .reset :: rest ∧ t = { hardwareReset s with host := rest }) ∨
    (s.fault = none ∧ ((sameContext s t ∧ t.fault = none) ∨ ∃ w u, sameContext s u ∧ perform w u = .next t)) := by
  obtain ⟨rest, hr, ht⟩ | ⟨hf, ⟨-, -, rfl⟩ | ⟨w, p, rest, -, -, hw⟩ | ⟨bytes, rest, -, hd⟩ | ⟨rest, -, hr⟩⟩ :=
    step_eq_next h
  · exact .inl ⟨rest, hr, (Host.Outcome.next.inj ht).symm⟩
  · exact .inr ⟨hf, .inl ⟨by simp [sameContext], hf⟩⟩
  · exact .inr ⟨hf, .inr ⟨w, _, accept_context w p rest s, hw⟩⟩
  · refine .inr ⟨hf, ?_⟩
    rw [takeData] at hd
    split at hd
    · obtain rfl := Host.Outcome.next.inj hd
      exact .inl ⟨by simp [sameContext], hf⟩
    · split at hd
      · exact .inr ⟨_, _, receive_context _ bytes rest s, hd⟩
      · cases hd
  · refine .inr ⟨hf, .inl ?_⟩
    rw [takeRead] at hr
    split at hr
    · obtain rfl := Host.Outcome.next.inj hr
      exact ⟨by simp [sameContext], hf⟩
    · cases hr

/-! ### The fault record (R26) -/

theorem exec_fault {i : Instr} {s t : State} (h : exec i s = .next t) :
    s.fault = none ∧ (t.fault = none ∨ t.fault = some (.misuse (encode i))) := by
  cases i with
  | init =>
    obtain ⟨hf, rfl⟩ := execInit_eq_next.1 h
    exact ⟨hf, .inl hf⟩
  | update len =>
    obtain ⟨hf, ⟨-, rfl⟩ | ⟨-, -, rfl⟩ | ⟨-, -, u, hu, rfl⟩⟩ := execUpdate_eq_next.1 h
    · exact ⟨hf, .inr rfl⟩
    · exact ⟨hf, .inl hf⟩
    · exact ⟨hf, .inl ((absorb_channels hu).fault.trans hf)⟩
  | final =>
    obtain ⟨hf, ⟨-, rfl⟩ | ⟨-, u, hu, rfl⟩⟩ := execFinal_eq_next.1 h
    · exact ⟨hf, .inr rfl⟩
    · exact ⟨hf, .inl ((padAndCompress_channels hu).fault.trans hf)⟩
  | size =>
    obtain ⟨hf, rfl⟩ := execSize_eq_next.1 h
    exact ⟨hf, .inl hf⟩

/-- An accepted word records nothing, itself as illegal, or Misuse with the word of the command it decodes to. -/
theorem perform_fault {w : Word} {s t : State} {r : FaultRecord} (h : perform w s = .next t) (hr : t.fault = some r) :
    ∃ w', (r = .illegalCommand w' ∧ ∃ e, decode w' = .error e) ∨ (r = .misuse w' ∧ ∃ i, decode w' = .ok i) := by
  obtain ⟨i, hi, hx⟩ | ⟨herr, rfl⟩ := perform_eq_next.1 h
  · obtain ⟨-, hnone | hmis⟩ := exec_fault hx
    · cases hnone.symm.trans hr
    · exact ⟨encode i, .inr ⟨Option.some.inj (hr.symm.trans hmis), i, decode_encode (wellFormed_of_decode hi)⟩⟩
  · exact ⟨w, .inl ⟨(Option.some.inj hr).symm, herr⟩⟩

/-- Settles O39: a record comes only from a performed command word, in a state that has none. -/
theorem faultRecordKept : Obligations.FaultRecordKept := by
  refine ⟨rfl, fun _ _ _ h => exec_fault h, fun s t h hreset => ?_⟩
  obtain ⟨rest, hr, -⟩ | ⟨hf, ⟨-, hnone⟩ | ⟨w, u, -, hw⟩⟩ := step_next_cases h
  · exact absurd hr (hreset rest)
  · exact ⟨hf, fun r hr => by cases hnone.symm.trans hr⟩
  · exact ⟨hf, fun r hr => perform_fault hw hr⟩

/-! ### The lifecycle phase (R25) -/

theorem execUpdate_phase {len : Nat} {s t : State} (h : exec (.update len) s = .next t) :
    t.phase = s.phase ∧ (s.phase ≠ .absorbing → t.fault = some (.misuse (encode (.update len)))) := by
  obtain ⟨-, ⟨-, rfl⟩ | ⟨hp, -, rfl⟩ | ⟨hp, -, u, hu, rfl⟩⟩ := execUpdate_eq_next.1 h
  · exact ⟨rfl, fun _ => rfl⟩
  · exact ⟨rfl, fun hne => absurd hp hne⟩
  · exact ⟨(absorb_channels hu).phase, fun hne => absurd hp hne⟩

theorem execFinal_phase {s t : State} (h : exec .final s = .next t) :
    (s.phase = .absorbing → t.phase = .finalized) ∧
    (s.phase ≠ .absorbing → t.phase = s.phase ∧ t.fault = some (.misuse (encode .final))) := by
  obtain ⟨-, ⟨hne, rfl⟩ | ⟨hp, u, -, rfl⟩⟩ := execFinal_eq_next.1 h
  · exact ⟨fun hp => absurd hp hne, fun _ => ⟨rfl, rfl⟩⟩
  · exact ⟨fun _ => rfl, fun hne => absurd hp hne⟩

theorem step_reset {s : State} {rest : List HostMove} (h : s.host = .reset :: rest) :
    step s = .next { hardwareReset s with host := rest } := by
  rw [step, h]; rfl

/-- Settles O48: each command's next state, read off its inversion lemma. -/
theorem phaseTransitions : Obligations.PhaseTransitions := by
  refine ⟨rfl, fun s t rest hr h => ?_, fun s t => ⟨fun h => ?_, fun len => execUpdate_phase, execFinal_phase, fun h => ?_⟩⟩
  · rw [step_reset hr, Host.Outcome.next.injEq] at h
    rw [← h]; rfl
  · obtain ⟨-, rfl⟩ := execInit_eq_next.1 h
    rfl
  · obtain ⟨-, rfl⟩ := execSize_eq_next.1 h
    rfl

end Sys2Proof.Proofs
end

section
/-! PROOFS. Who writes H (spec/10_state.md R15, spec/41_compression.md R85): what each part of UPDATE and FINAL
compresses into it, then the obligation. -/

namespace Sys2Proof.Proofs

open Sys2Proof.Machine

/-- v' is v with n blocks of 64 bytes compressed into it, in order. -/
def CompressedBy (n : Nat) (v v' : HashState) : Prop :=
  ∃ blocks : List (List Byte), blocks.length = n ∧ (∀ b ∈ blocks, b.length = 64) ∧ v' = blocks.foldl compress v

theorem CompressedBy.refl (v : HashState) : CompressedBy 0 v v := ⟨[], rfl, by simp, rfl⟩

theorem CompressedBy.block {block : List Byte} (v : HashState) (h : block.length = 64) :
    CompressedBy 1 v (compress v block) := ⟨[block], rfl, by simpa using h, rfl⟩

theorem CompressedBy.trans {m n : Nat} {u v w : HashState} (h : CompressedBy m u v) (k : CompressedBy n v w) :
    CompressedBy (n + m) u w := by
  obtain ⟨bs, rfl, hbs, rfl⟩ := h
  obtain ⟨cs, rfl, hcs, rfl⟩ := k
  exact ⟨bs ++ cs, by rw [List.length_append, Nat.add_comm],
    fun b hb => (List.mem_append.1 hb).elim (hbs b) (hcs b), (List.foldl_append ..).symm⟩

theorem directBlocks_compressedBy {n : Nat} {input : List Byte} {s : State} (hlen : 64 * n ≤ input.length) :
    CompressedBy n s.h (directBlocks n input s).1.h := by
  induction n generalizing input s with
  | zero => exact .refl s.h
  | succ n ih =>
    have hblock : (input.take 64).length = 64 := by rw [List.length_take]; exact Nat.min_eq_left (by omega)
    have hrest : 64 * n ≤ (input.drop 64).length := by rw [List.length_drop]; omega
    exact (CompressedBy.block s.h hblock).trans (ih hrest)

/-- Step (1) of R89 compresses one block or none. -/
theorem topUp_compressedBy {input rest : List Byte} {s t : State} (h : topUp input s = some (t, rest)) :
    ∃ n, CompressedBy n s.h t.h := by
  obtain ⟨-, e⟩ | ⟨-, -, e⟩ | ⟨-, -, e⟩ := topUp_cases input s
  · obtain ⟨rfl, -⟩ : s = t ∧ input = rest := by simpa [e] using h
    exact ⟨0, .refl s.h⟩
  · obtain ⟨rfl, -⟩ : appendBytes input s = t ∧ _ := by simpa [e] using h
    exact ⟨0, .refl s.h⟩
  · rw [e, Option.map_eq_some_iff] at h
    obtain ⟨block, hread, hb⟩ := h
    obtain ⟨rfl, -⟩ := Prod.mk.inj hb
    exact ⟨1, .block s.h (memRead_length hread)⟩

/-- UPDATE's body is step (1) of R89, then steps (2) and (3) on the input it leaves. -/
theorem absorb_eq_some {input : List Byte} {s u : State} :
    absorb input s = some u ↔ ∃ t rest, topUp input s = some (t, rest) ∧
      u = appendBytes (directBlocks (rest.length / 64) rest t).2 (directBlocks (rest.length / 64) rest t).1 := by
  rw [absorb]
  cases h : topUp input s with
  | none => simp
  | some p => simp [bufSize, eq_comm, Prod.ext_iff]

theorem absorb_compressedBy {input : List Byte} {s u : State} (h : absorb input s = some u) :
    ∃ n, CompressedBy n s.h u.h := by
  obtain ⟨t, rest, ht, rfl⟩ := absorb_eq_some.1 h
  obtain ⟨n, hn⟩ := topUp_compressedBy ht
  exact ⟨_, hn.trans (directBlocks_compressedBy (Nat.mul_div_le _ _))⟩

theorem compressBuffer_compressedBy {s t : State} (h : compressBuffer s = some t) : CompressedBy 1 s.h t.h := by
  obtain ⟨block, hread, rfl⟩ := compressBuffer_eq_some.1 h
  exact .block s.h (memRead_length hread)

theorem closeMessage_compressedBy {s t : State} {j : Nat} (h : closeMessage s j = some t) :
    CompressedBy 1 s.h t.h :=
  (compressBuffer_compressedBy h :)

/-- FINAL compresses its last block, and before it one more where the length field has no room (R97). -/
theorem padAndCompress_compressedBy {s u : State} (h : padAndCompress s = some u) :
    CompressedBy 1 s.h u.h ∨ CompressedBy 2 s.h u.h := by
  rw [padAndCompress, Option.bind_eq_some_iff] at h
  obtain ⟨⟨t, j⟩, ht, hu⟩ := h
  have hlast := closeMessage_compressedBy hu
  rw [closeBlock] at ht
  split at ht
  · obtain ⟨t', hfull, e⟩ := Option.map_eq_some_iff.1 ht
    obtain ⟨rfl, -⟩ := Prod.mk.inj e
    exact .inr ((compressBuffer_compressedBy hfull).trans hlast)
  · obtain ⟨rfl, -⟩ := Prod.mk.inj (Option.some.inj ht)
    exact .inl hlast

/-- Settles O49: the blocks UPDATE and FINAL compress are those of their bodies; a waiting UPDATE compresses none. -/
theorem hashWriters : Obligations.HashWriters := by
  intro i s t h hf
  cases i with
  | init =>
    obtain ⟨-, rfl⟩ := execInit_eq_next.1 h
    rfl
  | size =>
    obtain ⟨-, rfl⟩ := execSize_eq_next.1 h
    rfl
  | update len =>
    have hmany : ∃ n, CompressedBy n s.h t.h := by
      obtain ⟨-, ⟨-, rfl⟩ | ⟨-, -, rfl⟩ | ⟨-, -, u, hu, rfl⟩⟩ := execUpdate_eq_next.1 h
      · cases hf
      · exact ⟨0, .refl s.h⟩
      · exact (absorb_compressedBy hu :)
    obtain ⟨-, blocks, -, hblocks⟩ := hmany
    exact ⟨blocks, hblocks⟩
  | final =>
    obtain ⟨-, ⟨-, rfl⟩ | ⟨-, u, hu, rfl⟩⟩ := execFinal_eq_next.1 h
    · cases hf
    · obtain ⟨blocks, hlen, hblocks⟩ | ⟨blocks, hlen, hblocks⟩ := padAndCompress_compressedBy hu
      · exact ⟨blocks, .inl hlen, hblocks⟩
      · exact ⟨blocks, .inr hlen, hblocks⟩

end Sys2Proof.Proofs
end

section
/-! PROOFS. The message the context holds (spec/10_state.md R32): the counter and the block hash as sums, what UPDATE's body
does to a stream of bytes, and from it the obligations on UPDATE and on every step. -/

namespace Sys2Proof.Proofs

open Sys2Proof.Machine

/-! ### The byte counter and the hash of whole blocks -/

theorem count64_toNat (cH cL : Word) : (count64 cH cL).toNat = cH.toNat * 2 ^ 32 + cL.toNat :=
  toNat_append_eq_add cH cL

/-- R87: Add64 adds modulo 2^64; the carry is the low halves' sum divided by 2^32. -/
theorem count64_add64 (cH cL n : Word) :
    count64 (add64 cH cL n).1 (add64 cH cL n).2 = count64 cH cL + n.zeroExtend 64 := by
  apply BitVec.eq_of_toNat_eq
  have hH := cH.isLt
  have hL := cL.isLt
  have hn := n.isLt
  rw [count64_toNat, BitVec.toNat_add, count64_toNat]
  simp only [add64, BitVec.truncate_eq_setWidth, BitVec.toNat_add, BitVec.toNat_setWidth,
    BitVec.extractLsb'_toNat, Nat.reducePow, Nat.add_mod_mod, Nat.mod_add_mod, Nat.shiftRight_eq_div_pow, pow_one,
    pow_zero, Nat.div_one, Nat.reduceDvd, Nat.mod_mod_of_dvd]
  omega

theorem hashBlocks_add (a b : Nat) (m : List Byte) (v : HashState) :
    hashBlocks (a + b) m v = hashBlocks b (m.drop (64 * a)) (hashBlocks a m v) := by
  induction a generalizing m v with
  | zero => simp [hashBlocks]
  | succ a ih =>
    rw [Nat.add_right_comm, hashBlocks, ih, List.drop_drop, hashBlocks, Nat.mul_succ, Nat.add_comm 64]

/-- Bytes behind the blocks that are hashed do not matter. -/
theorem hashBlocks_append {n : Nat} {m : List Byte} (x : List Byte) (v : HashState) (h : 64 * n ≤ m.length) :
    hashBlocks n (m ++ x) v = hashBlocks n m v := by
  induction n generalizing m v with
  | zero => rfl
  | succ n ih =>
    rw [hashBlocks, hashBlocks, List.take_append_of_le_length (by omega), List.drop_append_of_le_length (by omega),
      ih _ (by rw [List.length_drop]; omega)]

/-! ### A stream of bytes taken into the context -/

/-- Starting from s, the bytes have been taken into t: their whole blocks compressed in order and counted, the rest pending. -/
structure Taken (s : State) (bytes : List Byte) (t : State) : Prop where
  hash : t.h = hashBlocks (bytes.length / 64) bytes s.h
  count : count64 t.cH t.cL = count64 s.cH s.cL + BitVec.ofNat 64 (64 * (bytes.length / 64))
  pending : t.pl.toNat = bytes.length % 64
  buffer : memRead t.buf 0 t.pl.toNat = some (bytes.drop (64 * (bytes.length / 64)))

/-- R32 is this relation, from the context INIT leaves. -/
theorem absorbed_iff_taken {s t : State} {m : List Byte} :
    Absorbed t m ↔ t.phase = .absorbing ∧ Taken (initContext s) m t := by
  have h0 : count64 (initContext s).cH (initContext s).cL = 0 := (by decide : count64 0 0 = 0)
  have hzero (c : BitVec 64) : count64 (initContext s).cH (initContext s).cL + c = c := by rw [h0, zero_add]
  constructor
  · rintro ⟨hphase, hcount, hpl, hbuf, hhash⟩
    exact ⟨hphase, hhash, hcount.trans (hzero _).symm, hpl, hbuf⟩
  · rintro ⟨hphase, hhash, hcount, hpl, hbuf⟩
    exact ⟨hphase, hcount.trans (hzero _), hpl, hbuf, hhash⟩

/-- The bytes pending after m, followed by more bytes, continue m. -/
theorem Taken.trans {s t u : State} {m x : List Byte} (h : Taken s m t)
    (k : Taken t (m.drop (64 * (m.length / 64)) ++ x) u) : Taken s (m ++ x) u := by
  have hle : 64 * (m.length / 64) ≤ m.length := by omega
  have hdrop : m.drop (64 * (m.length / 64)) ++ x = (m ++ x).drop (64 * (m.length / 64)) :=
    (List.drop_append_of_le_length hle).symm
  have hlen : ((m ++ x).drop (64 * (m.length / 64))).length = m.length % 64 + x.length := by
    rw [List.length_drop, List.length_append]; omega
  have hdiv : (m ++ x).length / 64 = m.length / 64 + (m.length % 64 + x.length) / 64 := by
    rw [List.length_append]; omega
  obtain ⟨hh, hc, hpl, hb⟩ := k
  rw [hdrop, hlen] at hh hc hb
  rw [hdrop, hlen] at hpl
  refine ⟨?_, ?_, ?_, ?_⟩
  · rw [hh, h.hash, hdiv, hashBlocks_add, hashBlocks_append x _ hle]
  · rw [hc, h.count, hdiv, Nat.mul_add, BitVec.ofNat_add, BitVec.add_assoc]
  · rw [hpl, List.length_append]; omega
  · rw [hb, List.drop_drop, hdiv, Nat.mul_add]

/-- The same, when m leaves nothing pending. -/
theorem Taken.trans_blocks {s t u : State} {m x : List Byte} (h : Taken s m t) (hm : m.length % 64 = 0)
    (k : Taken t x u) : Taken s (m ++ x) u := by
  have hnil : m.drop (64 * (m.length / 64)) = [] := List.drop_eq_nil_of_le (by omega)
  exact h.trans (by rwa [hnil])

/-- Appended bytes that fill no block are taken, behind those pending. -/
theorem appendBytes_taken {s : State} {pending : List Byte} (x : List Byte)
    (h : memRead s.buf 0 s.pl.toNat = some pending) (hlt : s.pl.toNat + x.length < 64) :
    Taken s (pending ++ x) (appendBytes x s) := by
  have hlen : (pending ++ x).length = s.pl.toNat + x.length := by rw [List.length_append, memRead_length h]
  have hpl : (appendBytes x s).pl.toNat = s.pl.toNat + x.length := by simp [Nat.mod_eq_of_lt hlt]
  have hdiv : (s.pl.toNat + x.length) / 64 = 0 := Nat.div_eq_of_lt hlt
  refine ⟨?_, ?_, ?_, ?_⟩
  · rw [hlen, hdiv]; rfl
  · simp [hlen, hdiv]
  · rw [hlen, hpl, Nat.mod_eq_of_lt hlt]
  · rw [hlen, hpl, hdiv, appendBytes_buf, memRead_memWrite_append x h]; rfl

/-- One block compressed and counted is taken, when nothing is pending afterwards. -/
theorem Taken.of_absorbBlock {s t : State} {block : List Byte} (hlen : block.length = 64)
    (hh : t.h = (absorbBlock block s).h) (hH : t.cH = (absorbBlock block s).cH) (hL : t.cL = (absorbBlock block s).cL)
    (hpl : t.pl = 0) : Taken s block t := by
  refine ⟨?_, ?_, ?_, ?_⟩
  · rw [hh, hlen, absorbBlock_h, hashBlocks, List.take_of_length_le (Nat.le_of_eq hlen)]; rfl
  · rw [hH, hL, hlen]; exact count64_add64 s.cH s.cL 64
  · rw [hpl, hlen]; rfl
  · rw [hpl, hlen, List.drop_eq_nil_of_le (by omega)]; rfl

/-- Step (2) of R89 takes its n blocks, when nothing is pending. -/
theorem directBlocks_taken {n : Nat} {input : List Byte} {s : State} (hpl : s.pl = 0) (hlen : 64 * n ≤ input.length) :
    Taken s (input.take (64 * n)) (directBlocks n input s).1 := by
  induction n generalizing input s with
  | zero => simpa [directBlocks] using appendBytes_taken (s := s) (pending := []) [] (by simp [hpl]) (by simp [hpl])
  | succ n ih =>
    have hblock : (input.take 64).length = 64 := by rw [List.length_take]; omega
    rw [Nat.mul_succ, Nat.add_comm, List.take_add]
    exact (Taken.of_absorbBlock hblock rfl rfl rfl hpl).trans_blocks (by rw [hblock])
      (ih hpl (by rw [List.length_drop]; omega))

/-- Steps (2) and (3) of R89 take the whole input, when nothing is pending. -/
theorem directBlocks_appendBytes_taken {s : State} (input : List Byte) (hpl : s.pl = 0) :
    Taken s input
      (appendBytes (directBlocks (input.length / 64) input s).2 (directBlocks (input.length / 64) input s).1) := by
  obtain ⟨hrest, -, hpl', -⟩ := directBlocks_spec (input.length / 64) input s
  have hblocks := directBlocks_taken (n := input.length / 64) hpl (by omega : _ ≤ input.length)
  have htail := appendBytes_taken (s := (directBlocks (input.length / 64) input s).1) (pending := [])
    (input.drop (64 * (input.length / 64))) (by simp [hpl', hpl]) (by simp [hpl', hpl]; omega)
  rw [hrest]
  simpa using hblocks.trans_blocks (by rw [List.length_take]; omega) htail

/-- UPDATE's body succeeds on readable pending bytes, and takes them and the input (R89). -/
theorem absorb_taken {s : State} {pending : List Byte} (input : List Byte)
    (h : memRead s.buf 0 s.pl.toNat = some pending) :
    ∃ t, absorb input s = some t ∧ Taken s (pending ++ input) t := by
  have hpl := s.pl.isLt
  rcases topUp_cases input s with ⟨h0, e⟩ | ⟨-, hlt, e⟩ | ⟨-, hge, e⟩
  · obtain rfl : pending = [] := by simpa [h0, eq_comm] using h
    exact ⟨_, absorb_eq_some.2 ⟨_, _, e, rfl⟩, directBlocks_appendBytes_taken input h0⟩
  · exact ⟨_, absorb_eq_some.2 ⟨_, _, e, (appendBytes_nil _).symm⟩, appendBytes_taken input h hlt⟩
  · have hroom : (input.take (64 - s.pl.toNat)).length = 64 - s.pl.toNat := by rw [List.length_take]; omega
    have hblock := memRead_memWrite_append (input.take (64 - s.pl.toNat)) h
    rw [hroom, Nat.add_sub_cancel' (by omega)] at hblock
    rw [hblock, Option.map_some] at e
    refine ⟨_, absorb_eq_some.2 ⟨_, _, e, rfl⟩, ?_⟩
    have hlen := memRead_length hblock
    have hfill : Taken s _ (emptyBuffer (absorbBlock (pending ++ input.take (64 - s.pl.toNat)) s)) :=
      .of_absorbBlock hlen rfl rfl rfl rfl
    have hall := hfill.trans_blocks (by rw [hlen])
      (directBlocks_appendBytes_taken (input.drop (64 - s.pl.toNat)) rfl)
    rwa [List.append_assoc, List.take_append_drop] at hall

theorem absorbed_of_sameContext {s t : State} {m : List Byte} (hc : sameContext s t) (h : Absorbed s m) :
    Absorbed t m := by
  obtain ⟨hh, hH, hL, hbuf, hpl, hphase⟩ := hc
  obtain ⟨kphase, kcount, kpl, kbuf, kh⟩ := h
  exact ⟨hphase.trans kphase, by rw [hH, hL, kcount], by rw [hpl, kpl], by rw [hbuf, hpl, kbuf], hh.trans kh⟩

/-- A context that holds m holds m followed by the input after UPDATE's body. -/
theorem absorb_absorbed {s : State} {m : List Byte} (input : List Byte) (h : Absorbed s m) :
    ∃ t, absorb input s = some t ∧ Absorbed t (m ++ input) := by
  obtain ⟨t, ht, htaken⟩ := absorb_taken input h.buffer
  obtain ⟨hphase, hm⟩ := (absorbed_iff_taken (s := s)).1 h
  exact ⟨t, ht, absorbed_iff_taken.2 ⟨(absorb_channels ht).phase.trans hphase, hm.trans htaken⟩⟩

/-- Settles O27: the payload continues the stream that begins with the pending bytes. -/
theorem updateExtendsMessage : Obligations.UpdateExtendsMessage := by
  intro s m hf h
  obtain ⟨u, hu, hm⟩ := absorb_absorbed s.din h
  have hc := absorb_channels hu
  exact ⟨complete [] u,
    execUpdate_eq_next.2 ⟨hf, .inr (.inr ⟨h.phase, le_rfl, u, by rwa [List.take_length], rfl⟩)⟩,
    ⟨hc.fault.trans hf, rfl, rfl, rfl, rfl⟩, absorbed_of_sameContext (complete_context [] u) hm, hc.host, hc.received⟩

/-! ### Every step -/

/-- The invariant of R32, said of a state in any phase. -/
def HoldsMessage (s : State) : Prop := s.phase = .absorbing → ∃ m, Absorbed s m

theorem HoldsMessage.of_sameContext {s t : State} (hc : sameContext s t) (h : HoldsMessage s) : HoldsMessage t := by
  obtain ⟨-, -, -, -, -, hphase⟩ := id hc
  intro ht
  obtain ⟨m, hm⟩ := h (hphase.symm.trans ht)
  exact ⟨m, absorbed_of_sameContext hc hm⟩

theorem initContext_absorbed (s : State) : Absorbed (initContext s) [] :=
  ⟨rfl, (by decide : count64 0 0 = 0), rfl, rfl, rfl⟩

/-- INIT opens the empty message, UPDATE extends the one held, SIZE keeps it, FINAL leaves phase ABSORBING. -/
theorem exec_holdsMessage {i : Instr} {s t : State} (hs : HoldsMessage s) (h : exec i s = .next t) :
    HoldsMessage t := by
  cases i with
  | init =>
    obtain ⟨-, rfl⟩ := execInit_eq_next.1 h
    exact fun _ => ⟨[], absorbed_of_sameContext (complete_context [] _) (initContext_absorbed s)⟩
  | update len =>
    obtain ⟨-, ⟨-, rfl⟩ | ⟨-, -, rfl⟩ | ⟨hp, -, u, hu, rfl⟩⟩ := execUpdate_eq_next.1 h
    · exact hs.of_sameContext (recordFault_context _ s)
    · exact hs.of_sameContext (awaitPayload_context _ s)
    · obtain ⟨m, hm⟩ := hs hp
      obtain ⟨v, hv, hmv⟩ := absorb_absorbed (s.din.take len) hm
      obtain rfl : v = u := Option.some.inj (hv.symm.trans hu)
      exact fun _ => ⟨_, absorbed_of_sameContext (complete_context [] _) hmv⟩
  | final =>
    obtain ⟨-, ⟨-, rfl⟩ | ⟨-, u, -, rfl⟩⟩ := execFinal_eq_next.1 h
    · exact hs.of_sameContext (recordFault_context _ s)
    · exact fun ht => absurd ht (by simp)
  | size =>
    obtain ⟨-, rfl⟩ := execSize_eq_next.1 h
    exact hs.of_sameContext (complete_context _ s)

/-- Settles O58: only a performed command word can change the context, and every command keeps the invariant. -/
theorem stepKeepsMessage : Obligations.StepKeepsMessage := by
  intro s t (hs : HoldsMessage s) h
  change HoldsMessage t
  obtain ⟨rest, -, rfl⟩ | ⟨-, ⟨hc, -⟩ | ⟨w, u, hc, hw⟩⟩ := step_next_cases h
  · exact fun ht => by cases ht
  · exact hs.of_sameContext hc
  · obtain ⟨i, -, hi⟩ | ⟨-, rfl⟩ := perform_eq_next.1 hw
    · exact exec_holdsMessage (hs.of_sameContext hc) hi
    · exact (hs.of_sameContext hc).of_sameContext (recordFault_context _ u)

end Sys2Proof.Proofs
end

section
/-! PROOFS. Bytes and words in order (spec/20_memory.md R36, R37, R39): the words of a block, the bytes of a digest and what
each command emits, then the three obligations about them. -/

namespace Sys2Proof.Proofs

open Sys2Proof.Machine

/-! ### Message words are big-endian (R37) -/

/-- Word i of a byte string that reaches byte 4i+3. -/
theorem wordsBE_getElem? {bytes : List Byte} {i : Nat} (h : 4 * i + 3 < bytes.length) :
    (wordsBE bytes)[i]? =
      some (be32 (bytes.getD (4 * i) 0) (bytes.getD (4 * i + 1) 0) (bytes.getD (4 * i + 2) 0)
        (bytes.getD (4 * i + 3) 0)) := by
  induction bytes using wordsBE.induct generalizing i with
  | case1 b0 b1 b2 b3 rest ih =>
    cases i with
    | zero => rfl
    | succ i => exact ih (by simp only [List.length_cons] at h; omega)
  | case2 bytes hshort =>
    match bytes with
    | b0 :: b1 :: b2 :: b3 :: rest => exact (hshort b0 b1 b2 b3 rest rfl).elim
    | [] | [_] | [_, _] | [_, _, _] => simp at h

/-- The recurrence of R79 only appends words. -/
theorem expand_getElem? {w : List Word} {i : Nat} {x : Word} (n : Nat) (h : w[i]? = some x) :
    (expand n w)[i]? = some x := by
  induction n generalizing w with
  | zero => exact h
  | succ n ih => exact ih (by rw [List.getElem?_append_left (List.getElem?_eq_some_iff.1 h).1, h])

theorem be32_firstByte (b0 b1 b2 b3 : Byte) : (be32 b0 b1 b2 b3).extractLsb' 24 8 = b0 :=
  (List.cons.inj (bytesBE_be32 b0 b1 b2 b3)).1

/-- Settles O7: a 64-byte block has 16 whole words, and the schedule begins with them. -/
theorem messageWordsBigEndian : Obligations.MessageWordsBigEndian := by
  intro block hlen
  have hword (i : Nat) (hi : i < 16) := expand_getElem? 48 (wordsBE_getElem? (bytes := block) (i := i) (by omega))
  refine ⟨hword, ?_⟩
  rw [List.getD_eq_getElem?_getD, schedule, hword 0 (by decide)]
  exact be32_firstByte ..

/-! ### The digest bytes (R39, R100) -/

theorem bytesBE_getElem? (w : Word) {k : Nat} (hk : k < 4) :
    (bytesBE w)[k]? = some (w.extractLsb' (24 - 8 * k) 8) := by
  interval_cases k <;> rfl

theorem flatMap_bytesBE_getElem? (ws : List Word) (i : Nat) {k : Nat} (hk : k < 4) :
    (ws.flatMap bytesBE)[4 * i + k]? = ws[i]?.map (fun w => w.extractLsb' (24 - 8 * k) 8) := by
  induction ws generalizing i with
  | nil => rfl
  | cons w ws ih =>
    have hlen : (bytesBE w).length = 4 := rfl
    rw [List.flatMap_cons]
    cases i with
    | zero =>
      rw [List.getElem?_append_left (by omega), Nat.mul_zero, Nat.zero_add, bytesBE_getElem? w hk]
      rfl
    | succ i =>
      rw [List.getElem?_append_right (by omega), hlen, List.getElem?_cons_succ, ← ih i]
      congr 1
      omega

@[simp] theorem serialise_length (hash : HashState) : (serialise hash).length = 32 := by
  simp [serialise, List.length_flatMap, bytesBE]

theorem serialise_getElem? (hash : HashState) (i : Fin 8) {k : Nat} (hk : k < 4) :
    (serialise hash)[4 * i.val + k]? = some (hash[i].extractLsb' (24 - 8 * k) 8) := by
  rw [serialise, flatMap_bytesBE_getElem? _ _ hk]
  simp

/-- In phase ABSORBING a FINAL that has a step answers the digest bytes of the H it leaves. -/
theorem execFinal_dout {s t : State} (hp : s.phase = .absorbing) (h : exec .final s = .next t) :
    t.dout = serialise t.h := by
  obtain ⟨-, ⟨hne, -⟩ | ⟨-, u, -, rfl⟩⟩ := execFinal_eq_next.1 h
  · exact absurd hp hne
  · rfl

/-- Settles O8: the response serialises H, four bytes to a word. -/
theorem digestByteOrder : Obligations.DigestByteOrder := by
  intro s t hp h
  rw [execFinal_dout hp h]
  exact ⟨serialise_length t.h, fun i _ hk => serialise_getElem? t.h i hk⟩

/-! ### What each command emits (R36) -/

/-- The bytes on DOUT after a command that has run to its end in the state t. -/
def response (t : State) : Instr → List Byte
  | .init => []
  | .update _ => []
  | .final => serialise t.h
  | .size => bytesBE Config.ctxSize

/-- A command with a next state leaves DOUT alone, with a fault recorded or its word waiting; or it has run to its end
and DOUT holds its response. -/
theorem exec_dout {i : Instr} {s t : State} (h : exec i s = .next t) :
    (t.dout = s.dout ∧ (t.fault ≠ none ∨ t.cmd ≠ none)) ∨
    (t.dout = response t i ∧ t.fault = none ∧ t.cmd = none) := by
  cases i with
  | init =>
    obtain ⟨hf, rfl⟩ := execInit_eq_next.1 h
    exact .inr ⟨rfl, hf, rfl⟩
  | update len =>
    obtain ⟨hf, ⟨-, rfl⟩ | ⟨-, -, rfl⟩ | ⟨-, -, u, hu, rfl⟩⟩ := execUpdate_eq_next.1 h
    · exact .inl ⟨rfl, .inl (by simp)⟩
    · exact .inl ⟨rfl, .inr (by simp)⟩
    · exact .inr ⟨rfl, (absorb_channels hu).fault.trans hf, rfl⟩
  | final =>
    obtain ⟨hf, ⟨-, rfl⟩ | ⟨-, u, hu, rfl⟩⟩ := execFinal_eq_next.1 h
    · exact .inl ⟨rfl, .inl (by simp)⟩
    · exact .inr ⟨rfl, (padAndCompress_channels hu).fault.trans hf, rfl⟩
  | size =>
    obtain ⟨hf, rfl⟩ := execSize_eq_next.1 h
    exact .inr ⟨rfl, hf, rfl⟩

/-- Settles O50: either nothing joins an empty DOUT, or the command's response does; a read takes its first byte. -/
theorem responsesByCommand : Obligations.ResponsesByCommand := by
  refine ⟨fun i s t h hempty => ?_, fun s b bs rest hf hd hh => ?_⟩
  · obtain ⟨hd, hstop⟩ | ⟨hd, hf, hc⟩ := exec_dout h
    · exact ⟨fun _ => hd.trans hempty, fun hf hc => absurd hstop (by simp [hf, hc])⟩
    · refine ⟨fun hstop => absurd hstop (by simp [hf, hc]), fun _ _ => ?_⟩
      cases i with
      | init | update => exact hd
      | final => exact ⟨hd ▸ serialise_length t.h, hd⟩
      | size => exact ⟨hd ▸ rfl, hd⟩
  · have hstep : step s = takeRead rest s := by rw [step, hh]; exact unlessFaulted_none _ hf
    rw [hstep, takeRead, hd]
    exact ⟨_, rfl, rfl, rfl, rfl, by simp [sameContext]⟩

end Sys2Proof.Proofs
end

section
/-! PROOFS. The buffer's canonical form (spec/20_memory.md R34): what UPDATE's parts, each command and each step leave of it. -/

namespace Sys2Proof.Proofs

open Sys2Proof.Machine

theorem wf_of_sameContext {s t : State} (hc : sameContext s t) (hs : Memory.wf s.buf = true) :
    Memory.wf t.buf = true := by
  obtain ⟨-, -, -, hbuf, -⟩ := hc
  rwa [hbuf]

/-- Step (1) of R89 writes no address beyond 63; afterwards nothing is pending or all input is used. -/
theorem topUp_wf {input rest : List Byte} {s t : State} (hs : Memory.wf s.buf = true)
    (h : topUp input s = some (t, rest)) : Memory.wf t.buf = true ∧ (t.pl = 0 ∨ rest = []) := by
  obtain ⟨h0, e⟩ | ⟨-, hlt, e⟩ | ⟨-, -, e⟩ := topUp_cases input s
  · obtain ⟨rfl, -⟩ : s = t ∧ input = rest := by simpa [e] using h
    exact ⟨hs, .inl h0⟩
  · obtain ⟨rfl, rfl⟩ : appendBytes input s = t ∧ [] = rest := by simpa [e] using h
    exact ⟨memWrite_wf input hs hlt.le, .inr rfl⟩
  · rw [e, Option.map_eq_some_iff] at h
    obtain ⟨block, -, hb⟩ := h
    obtain ⟨rfl, -⟩ := Prod.mk.inj hb
    exact ⟨rfl, .inl rfl⟩

/-- UPDATE's tail starts at 0 and is shorter than a block, or is empty. -/
theorem absorb_wf {input : List Byte} {s u : State} (hs : Memory.wf s.buf = true) (h : absorb input s = some u) :
    Memory.wf u.buf = true := by
  obtain ⟨t, rest, ht, rfl⟩ := absorb_eq_some.1 h
  obtain ⟨hwf, hend⟩ := topUp_wf hs ht
  obtain ⟨htail, hbuf, hpl, -⟩ := directBlocks_spec (rest.length / 64) rest t
  rw [appendBytes_buf, htail, hbuf, hpl]
  obtain h0 | rfl := hend
  · have hshort : (rest.drop (64 * (rest.length / 64))).length ≤ 64 := by rw [List.length_drop]; omega
    exact memWrite_wf _ hwf (by rw [h0]; exact (Nat.zero_add _).trans_le hshort)
  · simpa using hwf

theorem exec_wf {i : Instr} {s t : State} (hs : Memory.wf s.buf = true) (h : exec i s = .next t) :
    Memory.wf t.buf = true := by
  cases i with
  | init =>
    obtain ⟨-, rfl⟩ := execInit_eq_next.1 h
    rfl
  | update len =>
    obtain ⟨-, ⟨-, rfl⟩ | ⟨-, -, rfl⟩ | ⟨-, -, u, hu, rfl⟩⟩ := execUpdate_eq_next.1 h
    · exact hs
    · exact hs
    · exact (absorb_wf hs hu :)
  | final =>
    obtain ⟨-, ⟨-, rfl⟩ | ⟨-, u, -, rfl⟩⟩ := execFinal_eq_next.1 h
    · exact hs
    · rfl
  | size =>
    obtain ⟨-, rfl⟩ := execSize_eq_next.1 h
    exact hs

/-- Settles O53: a step that performs no command word keeps the buffer or, as a reset, empties it. -/
theorem bufferStaysCanonical : Obligations.BufferStaysCanonical := by
  refine ⟨fun i s t hs h => exec_wf hs h, fun s t hs h => ?_⟩
  obtain ⟨rest, -, rfl⟩ | ⟨-, ⟨hc, -⟩ | ⟨w, u, hc, hw⟩⟩ := step_next_cases h
  · rfl
  · exact wf_of_sameContext hc hs
  · obtain ⟨i, -, hi⟩ | ⟨-, rfl⟩ := perform_eq_next.1 hw
    · exact exec_wf (wf_of_sameContext hc hs) hi
    · exact wf_of_sameContext hc hs

end Sys2Proof.Proofs
end

section
/-! PROOFS. Engines side by side (spec/20_memory.md R50): one engine's step as a write at its place. -/

namespace Sys2Proof.Proofs

open Sys2Proof.Machine

theorem stepEngine_eq_next {n : Nat} {k : Fin n} {es fs : Vector State n} :
    stepEngine k es = .next fs ↔ ∃ t, step es[k] = .next t ∧ fs = es.set k t := by
  rw [stepEngine]
  cases step es[k] <;> simp [eq_comm]

/-- Settles O55: each step reads and writes its own engine's place, and writes to different places commute. -/
theorem enginesCommute : Obligations.EnginesCommute := by
  intro n j k es fs gs hjk hj hk
  have hne : j.val ≠ k.val := fun h => hjk (Fin.ext h)
  obtain ⟨t, ht, rfl⟩ := stepEngine_eq_next.1 hj
  obtain ⟨u, hu, rfl⟩ := stepEngine_eq_next.1 hk
  have hkeep : (es.set j t)[k] = es[k] := Vector.getElem_set_ne j.isLt k.isLt hne
  have hkeep' : (es.set k u)[j] = es[j] := Vector.getElem_set_ne k.isLt j.isLt hne.symm
  rw [hkeep] at hu
  exact ⟨hkeep, es.set k u, stepEngine_eq_next.2 ⟨u, hu, rfl⟩,
    stepEngine_eq_next.2 ⟨t, hkeep'.symm ▸ ht, Vector.set_comm _ _ hne⟩⟩

end Sys2Proof.Proofs
end

section
/-! PROOFS. The command word (spec/30_encoding.md R52 to R62): a word is its three fields, so each command has one word;
decode by the numbers the fields hold; the worked encodings. -/

namespace Sys2Proof.Proofs

/-- Settles O1: the fields of the encoded word are the ones decode reads the command from. -/
theorem decodeInvertsEncode : Obligations.DecodeInvertsEncode := fun _ => decode_encode

/-! ### A word is its three fields (R52) -/

theorem append_fields (w : Word) : lenField w ++ rsvField w ++ opField w = w :=
  calc lenField w ++ rsvField w ++ opField w
      = w.extractLsb' 4 28 ++ w.extractLsb' 0 4 := by
        rw [lenField, rsvField, opField,
          BitVec.extractLsb'_append_extractLsb'_eq_extractLsb' (start₂ := 8) (start₁ := 4) rfl]
    _ = w.extractLsb' 0 32 := BitVec.extractLsb'_append_extractLsb'_eq_extractLsb' (start₂ := 4) (start₁ := 0) rfl
    _ = w := BitVec.extractLsb'_eq_self

/-- Two words that decode to one command agree in every field. -/
theorem decode_ok_injective {v w : Word} {i : Instr} (hv : decode v = .ok i) (hw : decode w = .ok i) : v = w := by
  obtain ⟨hrsv, hop, hlen⟩ := decode_eq_ok.1 hv
  obtain ⟨hrsv', hop', hlen'⟩ := decode_eq_ok.1 hw
  have hfield : lenField v = lenField w := BitVec.eq_of_toNat_eq (hlen.trans hlen'.symm)
  rw [← append_fields v, ← append_fields w, hfield, hrsv, hrsv', hop, hop']

theorem encode_of_decode {w : Word} {i : Instr} (h : decode w = .ok i) : encode i = w :=
  decode_ok_injective (decode_encode (wellFormed_of_decode h)) h

/-- Settles O2: the word and the encoding of its command decode alike. -/
theorem encodeInvertsDecode : Obligations.EncodeInvertsDecode :=
  fun _ _ h => ⟨encode_of_decode h, wellFormed_of_decode h⟩

/-- A legal command has one word (R58). -/
theorem existsUnique_decode_eq_ok {i : Instr} (h : i.WellFormed) : ∃! w : Word, decode w = .ok i :=
  ⟨encode i, decode_encode h, fun _ hw => (encode_of_decode hw).symm⟩

/-! ### Decoding by the numbers in the fields (R56, R57) -/

theorem toNat_opField (w : Word) : (opField w).toNat = w.toNat % 16 := by
  simp [opField]

theorem toNat_rsvField (w : Word) : (rsvField w).toNat = w.toNat / 16 % 16 := by
  simp [rsvField, Nat.shiftRight_eq_div_pow]

theorem lenOperand_eq_div (w : Word) : lenOperand w = w.toNat / 256 := by
  have hlt : w.toNat / 256 < 2 ^ 24 := by omega
  rw [lenOperand, lenField, BitVec.extractLsb'_toNat, Nat.shiftRight_eq_div_pow]
  exact Nat.mod_eq_of_lt hlt

theorem decode_eq_ok_iff_toNat {w : Word} {i : Instr} :
    decode w = .ok i ↔
      w.toNat / 16 % 16 = 0 ∧ w.toNat % 16 = (opcode i).toNat ∧ w.toNat / 256 = lenOf i := by
  rw [decode_eq_ok, ← BitVec.toNat_inj, ← BitVec.toNat_inj, toNat_rsvField, toNat_opField, lenOperand_eq_div]
  rfl

/-- The words that carry a command: RSV is 0, and OP is UPDATE's or that of a command without operand with LEN 0. -/
theorem exists_decode_eq_ok {w : Word} :
    (∃ i, decode w = .ok i) ↔
      w.toNat / 16 % 16 = 0 ∧
        (w.toNat % 16 = 2 ∨ (w.toNat % 16 = 1 ∨ w.toNat % 16 = 3 ∨ w.toNat % 16 = 4) ∧ w.toNat / 256 = 0) := by
  simp only [decode_eq_ok_iff_toNat]
  constructor
  · rintro ⟨i, hrsv, hop, hlen⟩
    cases i with
    | init => exact ⟨hrsv, .inr ⟨.inl hop, hlen⟩⟩
    | update len => exact ⟨hrsv, .inl hop⟩
    | final => exact ⟨hrsv, .inr ⟨.inr (.inl hop), hlen⟩⟩
    | size => exact ⟨hrsv, .inr ⟨.inr (.inr hop), hlen⟩⟩
  · rintro ⟨hrsv, hop | ⟨hop | hop | hop, hlen⟩⟩
    · exact ⟨.update _, hrsv, hop, rfl⟩
    · exact ⟨.init, hrsv, hop, hlen⟩
    · exact ⟨.final, hrsv, hop, hlen⟩
    · exact ⟨.size, hrsv, hop, hlen⟩

theorem exists_decode_eq_error {w : Word} : (∃ e, decode w = .error e) ↔ ¬ ∃ i, decode w = .ok i := by
  cases decode w <;> simp

/-- R56: Illegal is what carries no command. -/
theorem exists_decode_eq_error_iff_toNat {w : Word} :
    (∃ e, decode w = .error e) ↔
      (w.toNat % 16 = 0 ∨ 5 ≤ w.toNat % 16) ∨ w.toNat / 16 % 16 ≠ 0 ∨
        ((w.toNat % 16 = 1 ∨ w.toNat % 16 = 3 ∨ w.toNat % 16 = 4) ∧ w.toNat / 256 ≠ 0) := by
  rw [exists_decode_eq_error, exists_decode_eq_ok]
  omega

/-- Settles O3: decode read off the three numbers, and the one word of each command from O1 and O2. -/
theorem decodeByFields : Obligations.DecodeByFields := by
  refine ⟨fun w => ⟨decode_eq_ok_iff_toNat, fun n => decode_eq_ok_iff_toNat, decode_eq_ok_iff_toNat,
    decode_eq_ok_iff_toNat, exists_decode_eq_error_iff_toNat⟩, ?_, ?_, ?_, ?_, ?_⟩
  · exact existsUnique_decode_eq_ok (i := .init) rfl
  · exact existsUnique_decode_eq_ok (i := .final) rfl
  · exact existsUnique_decode_eq_ok (i := .size) rfl
  · exact fun n hn => existsUnique_decode_eq_ok (i := .update n) (decide_eq_true hn)
  · exact fun n hn w h => hn.not_gt (of_decide_eq_true (wellFormed_of_decode h))

/-! ### The worked encodings (R62) -/

/-- Settles O4: each listed word evaluated by decode. -/
theorem workedEncodings : Obligations.WorkedEncodings := by
  unfold Obligations.WorkedEncodings
  decide

end Sys2Proof.Proofs
end

section
/-! PROOFS. INIT and SIZE (spec/40_init_size.md R63, R65): each is one word, has a next state wherever no fault is recorded,
and what that state holds. -/

namespace Sys2Proof.Proofs

open Sys2Proof.Machine

/-- A legal command is read from its encoding and from no other word (R58). -/
theorem decode_eq_ok_iff_eq_encode {w : Word} {i : Instr} (hi : i.WellFormed) : decode w = .ok i ↔ w = encode i := by
  constructor
  · exact fun h => (encode_of_decode h).symm
  · rintro rfl
    exact decode_encode hi

theorem exec_init {s : State} (hf : s.fault = none) : exec .init s = .next (complete [] (initContext s)) :=
  execInit_eq_next.2 ⟨hf, rfl⟩

theorem exec_size {s : State} (hf : s.fault = none) :
    exec .size s = .next (complete (bytesBE Config.ctxSize) s) :=
  execSize_eq_next.2 ⟨hf, rfl⟩

theorem ended_complete {s : State} (hf : s.fault = none) : Ended (complete [] s) :=
  ⟨hf, rfl, rfl, rfl, rfl⟩

/-- A response with a byte to drain keeps READY at 0 (R128). -/
theorem responding_complete {bytes : List Byte} {s : State} (hf : s.fault = none) (hne : bytes ≠ []) :
    Responding bytes (complete bytes s) :=
  ⟨hf, List.isEmpty_eq_false_iff.2 hne, rfl, rfl, rfl⟩

/-- Settles O19: INIT's next state is its new context, completed without a response; its buffer holds no value. -/
theorem initLoadsContext : Obligations.InitLoadsContext := by
  refine ⟨fun w => decode_eq_ok_iff_eq_encode (i := .init) rfl, fun s hf => ⟨_, exec_init hf, ?_⟩⟩
  have hended : Ended (complete [] (initContext s)) := ended_complete hf
  have hunwritten (j : Nat) : Memory.read (complete [] (initContext s)).buf j = none := rfl
  exact ⟨rfl, rfl, rfl, rfl, rfl, hended, fun j => .inr (hunwritten j), ⟨rfl, rfl, rfl⟩, rfl, rfl⟩

/-- Settles O21: SIZE's next state is the state before with the four bytes on DOUT; completing a command writes only the
channels. -/
theorem sizeEmitsContextSize : Obligations.SizeEmitsContextSize := by
  refine ⟨fun w => decode_eq_ok_iff_eq_encode (i := .size) rfl, fun s hf => ⟨_, exec_size hf, ?_⟩⟩
  have hresponding : Responding (bytesBE Config.ctxSize) (complete (bytesBE Config.ctxSize) s) :=
    responding_complete hf (List.cons_ne_nil _ _)
  exact ⟨hresponding, ⟨rfl, rfl, rfl, rfl, rfl, rfl⟩, ⟨rfl, rfl, rfl⟩, rfl, rfl⟩

end Sys2Proof.Proofs
end

section
/-! PROOFS. The Compression Core (spec/41_compression.md R68 to R86): the tables against the prime roots, the bitwise
functions, the schedule as its recurrence, the rounds over 64 words and over a window of 16, the worked example. -/

namespace Sys2Proof.Proofs

open Sys2Proof.Machine

/-! ### The schedule (R79, R80) -/

/-- The recurrence of R79 at i, over words by index. -/
def scheduleTerm (w : Nat → Word) (i : Nat) : Word :=
  smallSigma1 (w (i - 2)) + w (i - 7) + smallSigma0 (w (i - 15)) + w (i - 16)

theorem nextWord_eq (w : List Word) : nextWord w = scheduleTerm (fun j => w.getD j 0) w.length := rfl

/-- The recurrence reads only the 16 words before i. -/
theorem scheduleTerm_congr {v w : Nat → Word} {i : Nat} (hi : 16 ≤ i)
    (h : ∀ j, j < i → i ≤ j + 16 → v j = w j) : scheduleTerm v i = scheduleTerm w i := by
  have hback (d : Nat) (h0 : 0 < d) (hd : d ≤ 16) : v (i - d) = w (i - d) := h _ (by omega) (by omega)
  simp only [scheduleTerm, hback 2 (by decide) (by decide), hback 7 (by decide) (by decide),
    hback 15 (by decide) (by decide), hback 16 (by decide) (by decide)]

@[simp] theorem wordsBE_length (bytes : List Byte) : (wordsBE bytes).length = bytes.length / 4 := by
  induction bytes using wordsBE.induct with
  | case1 b0 b1 b2 b3 rest ih => simp only [wordsBE, List.length_cons, ih]; omega
  | case2 bytes hshort =>
    match bytes with
    | b0 :: b1 :: b2 :: b3 :: rest => exact (hshort b0 b1 b2 b3 rest rfl).elim
    | [] | [_] | [_, _] | [_, _, _] => simp [wordsBE]

@[simp] theorem expand_length (n : Nat) (w : List Word) : (expand n w).length = w.length + n := by
  induction n generalizing w with
  | zero => rfl
  | succ n ih => rw [expand, ih, List.length_append, List.length_singleton]; omega

theorem expand_getD_of_lt {w : List Word} {j : Nat} (n : Nat) (hj : j < w.length) :
    (expand n w).getD j 0 = w.getD j 0 := by
  simp only [List.getD_eq_getElem?_getD, expand_getElem? n (List.getElem?_eq_getElem hj), List.getElem?_eq_getElem hj]

/-- Every word that expand appends is the recurrence of words of the whole. -/
theorem expand_getD {n : Nat} {w : List Word} {i : Nat} (h16 : 16 ≤ w.length) (hlow : w.length ≤ i)
    (hhigh : i < w.length + n) : (expand n w).getD i 0 = scheduleTerm (fun j => (expand n w).getD j 0) i := by
  induction n generalizing w with
  | zero => omega
  | succ n ih =>
    have hlen : (w ++ [nextWord w]).length = w.length + 1 := List.length_append
    obtain rfl | hlater := hlow.eq_or_lt
    · have hkeep (j : Nat) (hj : j < w.length) : (expand (n + 1) w).getD j 0 = w.getD j 0 :=
        expand_getD_of_lt (n + 1) hj
      calc (expand (n + 1) w).getD w.length 0
          = (w ++ [nextWord w]).getD w.length 0 := expand_getD_of_lt n (by omega)
        _ = nextWord w := by simp
        _ = scheduleTerm (fun j => w.getD j 0) w.length := nextWord_eq w
        _ = _ := scheduleTerm_congr h16 fun j hj _ => (hkeep j hj).symm
    · exact ih (by omega) (by omega) (by omega)

theorem schedule_length {block : List Byte} (h : block.length = 64) : (schedule block).length = 64 := by
  simp [schedule, h]

theorem schedule_getD {block : List Byte} (h : block.length = 64) {i : Nat} (hlow : 16 ≤ i) (hhigh : i < 64) :
    (schedule block).getD i 0 = scheduleTerm (fun j => (schedule block).getD j 0) i := by
  have hlen : (wordsBE block).length = 16 := by simp [h]
  exact expand_getD hlen.ge (by omega) (by omega)

/-- Settles O15: 48 words join the block's 16, each by the recurrence. -/
theorem scheduleRecurrence : Obligations.ScheduleRecurrence :=
  fun _ h => ⟨schedule_length h, fun _ hlow hhigh => schedule_getD h hlow hhigh⟩

/-! ### The 16-word window (R80) -/

/-- The window holds the words w (n−16) to w (n−1), each in the slot of its index modulo 16. -/
def HoldsWindow (slots : List Word) (w : Nat → Word) (n : Nat) : Prop :=
  slots.length = 16 ∧ ∀ j, j < n → n ≤ j + 16 → slots.getD (j % 16) 0 = w j

theorem slideWindow_of_lt {slots : List Word} {t : Nat} (h : t < 16) : slideWindow slots t = slots := if_pos h

theorem slideWindow_of_le {slots : List Word} {t : Nat} (h : 16 ≤ t) :
    slideWindow slots t = slots.set (t % 16) (scheduleTerm (fun i => slots.getD (i % 16) 0) t) := if_neg h.not_gt

/-- From round 16 on the new word replaces the oldest, which no later round reads. -/
theorem HoldsWindow.slide_of_le {slots : List Word} {w : Nat → Word} {n : Nat} (h : HoldsWindow slots w n)
    (hle : 16 ≤ n) (hw : w n = scheduleTerm w n) : HoldsWindow (slideWindow slots n) w (n + 1) := by
  obtain ⟨hlen, hslot⟩ := h
  have hnew : scheduleTerm (fun i => slots.getD (i % 16) 0) n = w n := (scheduleTerm_congr hle hslot).trans hw.symm
  rw [slideWindow_of_le hle, hnew]
  refine ⟨(List.length_set ..).trans hlen, fun j hj hrecent => ?_⟩
  obtain rfl | hne := eq_or_ne j n
  · have hmod : j % 16 < slots.length := by omega
    simp [List.getD_eq_getElem?_getD, hmod]
  · have hmod : n % 16 ≠ j % 16 := by omega
    rw [List.getD_eq_getElem?_getD, List.getElem?_set_ne hmod, ← List.getD_eq_getElem?_getD]
    exact hslot j (by omega) (by omega)

/-- In the first 16 rounds the window stays as loaded; from then on it slides. -/
theorem HoldsWindow.slide {slots : List Word} {w : Nat → Word} {n : Nat} (h : HoldsWindow slots w (max n 16))
    (hw : 16 ≤ n → w n = scheduleTerm w n) : HoldsWindow (slideWindow slots n) w (max (n + 1) 16) := by
  obtain hlt | hle := Nat.lt_or_ge n 16
  · rwa [slideWindow_of_lt hlt, Nat.max_eq_right hlt, ← Nat.max_eq_right hlt.le]
  · rw [Nat.max_eq_left hle] at h
    rw [Nat.max_eq_left (Nat.le_succ_of_le hle)]
    exact h.slide_of_le hle (hw hle)

theorem holdsWindow_wordsBE {block : List Byte} (h : block.length = 64) :
    HoldsWindow (wordsBE block) (fun j => (schedule block).getD j 0) 16 := by
  have hlen : (wordsBE block).length = 16 := by simp [h]
  refine ⟨hlen, fun j hj _ => ?_⟩
  rw [Nat.mod_eq_of_lt hj]
  exact (expand_getD_of_lt 48 (by omega)).symm

/-- Over the window the rounds compute what they compute over the list w, as far as w follows the recurrence. -/
theorem windowRounds_eq_rounds {slots w : List Word} (v : Working) {n : Nat}
    (h : HoldsWindow slots (fun j => w.getD j 0) 16)
    (hw : ∀ i, 16 ≤ i → i < n → w.getD i 0 = scheduleTerm (fun j => w.getD j 0) i) :
    (windowRounds slots n v).2 = rounds w n v ∧
      HoldsWindow (windowRounds slots n v).1 (fun j => w.getD j 0) (max n 16) := by
  induction n with
  | zero => exact ⟨rfl, h⟩
  | succ n ih =>
    obtain ⟨hround, hwindow⟩ := ih fun i hlow hhigh => hw i hlow (Nat.lt_succ_of_lt hhigh)
    have hslid := hwindow.slide fun hlow => hw n hlow n.lt_succ_self
    have hread := hslid.2 n (by omega) (by omega)
    exact ⟨by rw [windowRounds, hround, hread, rounds], hslid⟩

theorem compress_eq (hash : HashState) (block : List Byte) :
    compress hash block = feedForward hash (rounds (schedule block) 64 (startWorking hash)) := by
  unfold compress; rfl

/-- Settles O17: the window starts as the block's words and yields the schedule's word in each of the 64 rounds. -/
theorem windowedCompressionAgrees : Obligations.WindowedCompressionAgrees := by
  intro hash block h
  obtain ⟨hrounds, -⟩ := windowRounds_eq_rounds (startWorking hash) (n := 64) (holdsWindow_wordsBE h)
    fun _ hlow hhigh => schedule_getD h hlow hhigh
  rw [compressWindow, hrounds, compress_eq]

/-! ### The constants (R68 to R70) -/

theorem isSqrt_nthRoot (x : Nat) : IsSqrt x (Nat.nthRoot 2 x) :=
  ⟨Nat.pow_nthRoot_le (.inl two_ne_zero), Nat.lt_pow_nthRoot_add_one two_ne_zero x⟩

theorem isCbrt_nthRoot (x : Nat) : IsCbrt x (Nat.nthRoot 3 x) :=
  ⟨Nat.pow_nthRoot_le (.inl three_ne_zero), Nat.lt_pow_nthRoot_add_one three_ne_zero x⟩

theorem iv_eq_nthRoot : ∀ i, i < 8 →
    iv[i]?.getD 0 = BitVec.ofNat 32 (Nat.nthRoot 2 (firstPrimes.getD i 0 * 2 ^ 64)) := by
  decide +kernel

theorem roundConstant_eq_nthRoot : ∀ t, t < 64 →
    roundConstant t = BitVec.ofNat 32 (Nat.nthRoot 3 (firstPrimes.getD t 0 * 2 ^ 96)) := by
  decide +kernel

theorem firstPrimes_eq_filter : firstPrimes = (List.range 312).filter isPrime := by
  decide +kernel

/-- Settles O12: both tables evaluated against the roots of the scaled primes. -/
theorem constantsFromPrimeRoots : Obligations.ConstantsFromPrimeRoots :=
  ⟨firstPrimes_eq_filter, fun i hi => ⟨_, isSqrt_nthRoot _, iv_eq_nthRoot i hi⟩,
    fun t ht => ⟨_, isCbrt_nthRoot _, roundConstant_eq_nthRoot t ht⟩⟩

/-! ### The bitwise functions (R71 to R77) -/

theorem ch_getLsbD (x y z : Word) {i : Nat} (hi : i < 32) :
    (ch x y z).getLsbD i = if x.getLsbD i then y.getLsbD i else z.getLsbD i := by
  rw [ch, BitVec.getLsbD_xor, BitVec.getLsbD_and, BitVec.getLsbD_and, BitVec.getLsbD_not, decide_eq_true hi]
  cases x.getLsbD i <;> simp

theorem maj_getLsbD (x y z : Word) (i : Nat) :
    (maj x y z).getLsbD i = true ↔ 2 ≤ (x.getLsbD i).toNat + (y.getLsbD i).toNat + (z.getLsbD i).toNat := by
  have hmajority : ∀ a b c : Bool,
      ((a && b) ^^ (a && c) ^^ (b && c)) = true ↔ 2 ≤ a.toNat + b.toNat + c.toNat := by decide
  simp only [maj, BitVec.getLsbD_xor, BitVec.getLsbD_and, hmajority]

/-- Settles O13: the formulas are the definitions; bit by bit they select and take the majority. -/
theorem chooseAndMajority : Obligations.ChooseAndMajority :=
  ⟨fun _ _ _ => ⟨rfl, rfl⟩, fun x y z i hi => ⟨ch_getLsbD x y z hi, maj_getLsbD x y z i⟩⟩

/-- Both choices are y's bit. -/
@[simp] theorem ch_self_right (x y : Word) : ch x y y = y := by
  refine BitVec.eq_of_getLsbD_eq fun i hi => ?_
  rw [ch_getLsbD x y y hi, ite_self]

@[simp] theorem maj_self_left (x z : Word) : maj x x z = x := by
  rw [maj, BitVec.and_self, BitVec.xor_assoc, BitVec.xor_self, BitVec.xor_zero]

/-- Settles O14: the eight values of the sigma functions evaluated, the two identities for all words. -/
theorem functionFixedPoints : Obligations.FunctionFixedPoints :=
  ⟨by decide, by decide, by decide, by decide, by decide, by decide, by decide, by decide, ch_self_right, maj_self_left⟩

/-! ### Compress (R81 to R86) -/

/-- Settles O16: v t is the working variables after t rounds. -/
theorem compressByRounds : Obligations.CompressByRounds :=
  fun hash block _ =>
    ⟨fun t => rounds (schedule block) t (startWorking hash), rfl, fun _ _ => rfl, compress_eq hash block⟩

/-- Settles O18: the kernel runs the 64 rounds on the block's literal bytes. -/
theorem compressWorkedExample : Obligations.CompressWorkedExample := by
  unfold Obligations.CompressWorkedExample
  decide +kernel

end Sys2Proof.Proofs
end

section
/-! PROOFS. UPDATE (spec/42_update.md R87, R89, R92, R93): the two halves of Add64, the body on an input that fills no
block, the buffer's exact contents, the next state in each phase, then the four obligations. -/

namespace Sys2Proof.Proofs

open Sys2Proof.Machine

/-! ### The halves of Add64 (R87) -/

/-- 33 bits hold the sum of two words. -/
theorem toNat_add_zeroExtend33 (x y : Word) : (x.zeroExtend 33 + y.zeroExtend 33).toNat = x.toNat + y.toNat := by
  rw [BitVec.toNat_add, BitVec.toNat_setWidth_of_le (by decide), BitVec.toNat_setWidth_of_le (by decide)]
  omega

theorem add64_low (cH cL n : Word) : (add64 cH cL n).2 = cL + n := by
  apply BitVec.eq_of_toNat_eq
  rw [add64, BitVec.extractLsb'_toNat, toNat_add_zeroExtend33, Nat.shiftRight_zero, BitVec.toNat_add]

/-- The carry is bit 32 of the sum: the sum divided by 2^32. -/
theorem add64_high (cH cL n : Word) :
    (add64 cH cL n).1 = cH + if cL.toNat + n.toNat < 2 ^ 32 then 0 else 1 := by
  have hlt : (cL.toNat + n.toNat) / 2 ^ 32 < 2 := by omega
  refine congrArg (cH + ·) (BitVec.eq_of_toNat_eq ?_)
  rw [BitVec.toNat_setWidth_of_le (by decide), BitVec.extractLsb'_toNat, toNat_add_zeroExtend33,
    Nat.shiftRight_eq_div_pow, Nat.pow_one, Nat.mod_eq_of_lt hlt]
  split
  · exact Nat.div_eq_of_lt ‹_›
  · change _ = 1
    omega

/-- Settles O9: the halves of Add64 and its 64-bit value; a block and FINAL's first step set the counter by it. -/
theorem counterAddition : Obligations.CounterAddition := by
  refine ⟨fun cH cL n => ⟨add64_low cH cL n, add64_high cH cL n, ?_⟩, fun _ _ => rfl, fun _ => rfl⟩
  rw [count64_add64, BitVec.toNat_add, BitVec.toNat_setWidth_of_le (by decide)]

/-! ### The body of UPDATE (R89, R93) -/

theorem appendBytes_pl_toNat {bs : List Byte} {s : State} (h : s.pl.toNat + bs.length < 64) :
    (appendBytes bs s).pl.toNat = s.pl.toNat + bs.length := by
  rw [appendBytes_pl, BitVec.toNat_ofNat]
  exact Nat.mod_eq_of_lt h

/-- An input that fills no block is appended in step (1) or, with nothing pending, in step (3). -/
theorem absorb_of_lt {input : List Byte} {s : State} (h : s.pl.toNat + input.length < 64) :
    absorb input s = some (appendBytes input s) := by
  obtain ⟨-, e⟩ | ⟨-, -, e⟩ | ⟨-, hge, -⟩ := topUp_cases input s
  · have hnone : input.length / 64 = 0 := Nat.div_eq_of_lt (by omega)
    exact absorb_eq_some.2 ⟨s, input, e, by rw [hnone, directBlocks]⟩
  · exact absorb_eq_some.2 ⟨_, [], e, (appendBytes_nil _).symm⟩
  · omega

@[simp] theorem absorb_nil (s : State) : absorb [] s = some s := by
  rw [absorb_of_lt (input := []) s.pl.isLt, appendBytes_nil]

theorem appendBytes_pendingExact {bs : List Byte} {s : State} (hs : PendingExact s)
    (h : s.pl.toNat + bs.length < 64) : PendingExact (appendBytes bs s) := by
  rw [PendingExact, appendBytes_pl_toNat h]
  exact memWrite_keys bs hs

/-- With nothing pending, steps (2) and (3) of R89 leave the tail in the buffer and no other byte. -/
theorem directBlocks_appendBytes_pendingExact {s : State} (input : List Byte) (hs : PendingExact s) (hpl : s.pl = 0) :
    PendingExact
      (appendBytes (directBlocks (input.length / 64) input s).2 (directBlocks (input.length / 64) input s).1) := by
  obtain ⟨hrest, hbuf, hpl', -⟩ := directBlocks_spec (input.length / 64) input s
  have hblocks : PendingExact (directBlocks (input.length / 64) input s).1 := by
    rw [PendingExact, hbuf, hpl']
    exact hs
  have hzero : s.pl.toNat = 0 := by rw [hpl]; rfl
  have hshort : s.pl.toNat + (input.drop (64 * (input.length / 64))).length < 64 := by
    rw [hzero, List.length_drop]
    omega
  exact appendBytes_pendingExact hblocks (by rwa [hpl', hrest])

/-- UPDATE's body keeps the buffer at exactly the pending bytes: it appends behind them, or empties the buffer first. -/
theorem absorb_pendingExact {input : List Byte} {s u : State} (hs : PendingExact s) (h : absorb input s = some u) :
    PendingExact u := by
  obtain ⟨t, rest, ht, rfl⟩ := absorb_eq_some.1 h
  obtain ⟨h0, e⟩ | ⟨-, hlt, e⟩ | ⟨-, -, e⟩ := topUp_cases input s
  · obtain ⟨rfl, rfl⟩ : s = t ∧ input = rest := by simpa [e] using ht
    exact directBlocks_appendBytes_pendingExact input hs h0
  · obtain ⟨rfl, rfl⟩ : appendBytes input s = t ∧ [] = rest := by simpa [e] using ht
    exact (appendBytes_nil (appendBytes input s)).symm ▸ appendBytes_pendingExact hs hlt
  · rw [e, Option.map_eq_some_iff] at ht
    obtain ⟨block, -, hb⟩ := ht
    obtain ⟨rfl, rfl⟩ := Prod.mk.inj hb
    exact directBlocks_appendBytes_pendingExact _ rfl rfl

/-! ### The next state of UPDATE -/

/-- In phase ABSORBING, with the payload on DIN, UPDATE completes its body without a response. -/
theorem exec_update_of_absorb {len : Nat} {s u : State} (hf : s.fault = none) (hp : s.phase = .absorbing)
    (hlen : len ≤ s.din.length) (h : absorb (s.din.take len) s = some u) :
    exec (.update len) s = .next (complete [] u) :=
  execUpdate_eq_next.2 ⟨hf, .inr (.inr ⟨hp, hlen, u, h, rfl⟩)⟩

/-- The same, with LEN bytes on DIN and no more. -/
theorem exec_update_din {s u : State} (hf : s.fault = none) (hp : s.phase = .absorbing)
    (h : absorb s.din s = some u) : exec (.update s.din.length) s = .next (complete [] u) :=
  exec_update_of_absorb hf hp le_rfl (by rwa [List.take_length])

/-- In the other phases it records Misuse, whatever is on DIN (R106). -/
theorem exec_update_misuse {s : State} (len : Nat) (hf : s.fault = none) (hp : s.phase ≠ .absorbing) :
    exec (.update len) s = .next (recordFault (.misuse (encode (.update len))) s) :=
  execUpdate_eq_next.2 ⟨hf, .inl ⟨hp, rfl⟩⟩

theorem faulted_recordFault (r : FaultRecord) (s : State) : Faulted r s (recordFault r s) :=
  ⟨rfl, recordFault_context r s, ⟨rfl, rfl, rfl⟩, rfl, rfl⟩

/-- Settles O22: the body takes the pending bytes and the payload, and touches no channel. -/
theorem updateEffect : Obligations.UpdateEffect := by
  rintro s pending _ hf hp hread rfl
  obtain ⟨u, hu, hhash, hcount, hpl, hbuf⟩ := absorb_taken s.din hread
  have hc := absorb_channels hu
  refine ⟨complete [] u, exec_update_din hf hp hu, ended_complete (hc.fault.trans hf), hc.phase.trans hp, hhash, ?_, hpl,
    hbuf, fun hs => (absorb_pendingExact hs hu :), hc.host, hc.received⟩
  rw [complete_cH, complete_cL, hcount, BitVec.toNat_add, BitVec.toNat_ofNat, Nat.add_mod_mod]

/-- Settles O23: the body is one MemWrite of the payload at pl, and the new pl. -/
theorem updateAppendFrame : Obligations.UpdateAppendFrame := by
  rintro s _ hf hp rfl hlt
  refine ⟨complete [] (appendBytes s.din s), exec_update_din hf hp (absorb_of_lt hlt), ended_complete hf, rfl, rfl, rfl,
    rfl, ⟨rfl, rfl, rfl⟩, ⟨rfl, rfl⟩, appendBytes_pl_toNat hlt, fun a ha => ?_, fun k hk => ?_⟩
  · rw [complete_buf, appendBytes_buf, read_memWrite, if_neg (by omega)]
  · rw [complete_buf, appendBytes_buf, read_memWrite, if_pos (by omega), Nat.add_sub_cancel_left]

/-- Settles O24: the body on no bytes is the identity; outside ABSORBING the record holds the word of UPDATE(0). -/
theorem updateZeroLength : Obligations.UpdateZeroLength := by
  refine fun s hf => ⟨fun hp => ⟨complete [] s, ?_, ended_complete hf, complete_context [] s, ⟨rfl, rfl, rfl⟩, rfl, rfl⟩,
    fun hp => ⟨_, exec_update_misuse 0 hf hp, ?_⟩⟩
  · exact exec_update_of_absorb hf hp (Nat.zero_le _) (absorb_nil s)
  · have hword : encode (.update 0) = 0x00000002 := by decide
    exact hword ▸ faulted_recordFault _ s

end Sys2Proof.Proofs
end

section
/-! PROOFS. FINAL (spec/43_final.md R94 to R103): the length field, the padded message, the blocks FINAL makes of readable
pending bytes and the state it leaves, then the eight obligations. -/

namespace Sys2Proof.Proofs

open Sys2Proof.Machine

/-! ### The bit length and its field (R98, R99) -/

/-- The two parts of the high word have no bit in common: their OR is their sum. -/
theorem bitLength_high_toNat (cH cL : Word) :
    (bitLength cH cL).1.toNat = cH.toNat * 8 % 2 ^ 32 + cL.toNat / 2 ^ 29 := by
  have hlow : cL.toNat / 2 ^ 29 < 2 ^ 3 := by omega
  have hshift : cH.toNat * 2 ^ 3 % 2 ^ 32 = cH.toNat % 2 ^ 29 * 2 ^ 3 := by omega
  rw [bitLength, BitVec.toNat_or, shl_toNat, shr_toNat, hshift, ← Nat.shiftLeft_eq, ← Nat.shiftLeft_add_eq_or_of_lt hlow,
    Nat.shiftLeft_eq]
  omega

theorem count64_bitLength_toNat (cH cL : Word) :
    (count64 (bitLength cH cL).1 (bitLength cH cL).2).toNat = 8 * (count64 cH cL).toNat % 2 ^ 64 := by
  rw [count64_toNat, count64_toNat, bitLength_high_toNat, bitLength, shl_toNat]
  omega

/-- Settles O10: the three bits shifted out of the low word enter the high word. -/
theorem bitLengthIsEightTimesCount : Obligations.BitLengthIsEightTimesCount :=
  fun cH cL => ⟨rfl, rfl, (count64_toNat _ _).symm.trans (count64_bitLength_toNat cH cL)⟩

/-- The bytes of two words are the bytes of the 64-bit value they make. -/
theorem bytesBE_append_bytesBE (x y : Word) :
    bytesBE x ++ bytesBE y = (List.range 8).map (fun k => (count64 x y).extractLsb' (56 - 8 * k) 8) := by
  have hrange : List.range 8 = [0, 1, 2, 3, 4, 5, 6, 7] := rfl
  simp (disch := decide) only [hrange, bytesBE, count64, List.map_cons, List.map_nil, List.cons_append, List.nil_append,
    BitVec.extractLsb'_append_eq_of_le, BitVec.extractLsb'_append_eq_of_add_le, Nat.reduceSub, Nat.reduceMul]

/-- The length field as the bytes of 8·n, for a counter that holds n modulo 2^64 (R98, R99, R103). -/
theorem lengthField_eq_bitLengthBytes {cH cL : Word} {n : Nat} (h : count64 cH cL = BitVec.ofNat 64 n) :
    lengthField cH cL = bitLengthBytes n := by
  have hbits : count64 (bitLength cH cL).1 (bitLength cH cL).2 = BitVec.ofNat 64 (8 * n) := by
    apply BitVec.eq_of_toNat_eq
    rw [count64_bitLength_toNat, h, BitVec.toNat_ofNat, BitVec.toNat_ofNat]
    omega
  rw [lengthField, bytesBE_append_bytesBE, hbits, bitLengthBytes]

/-- Settles O11: every counter holds its own value. -/
theorem lengthFieldBigEndian : Obligations.LengthFieldBigEndian :=
  fun _ _ => lengthField_eq_bitLengthBytes (by rw [BitVec.ofNat_toNat, BitVec.setWidth_eq])

/-! ### The padded message (R97, R101) -/

@[simp] theorem zeros_length (n : Nat) : (zeros n).length = n := List.length_replicate

theorem zeros_add (a b : Nat) : zeros (a + b) = zeros a ++ zeros b := List.replicate_add ..

@[simp] theorem lengthField_length (cH cL : Word) : (lengthField cH cL).length = 8 := rfl

@[simp] theorem bitLengthBytes_length (n : Nat) : (bitLengthBytes n).length = 8 := rfl

theorem zeroCount_mod (n : Nat) : zeroCount (n % 64) = zeroCount n := by
  rw [zeroCount, zeroCount, Nat.mod_add_mod]

theorem zeroCount_of_le {n : Nat} (h : n ≤ 55) : zeroCount n = 55 - n := by
  rw [zeroCount]
  omega

theorem zeroCount_of_ge {n : Nat} (hlow : 56 ≤ n) (hhigh : n < 64) : zeroCount n = 63 - n + 56 := by
  rw [zeroCount]
  omega

/-- Settles O31: the zeros bring n + 9 up to a multiple of 64, by less than 64. -/
theorem paddingIsLeast : Obligations.PaddingIsLeast := by
  intro n
  rw [zeroCount]
  exact ⟨by omega, fun z hz => by omega⟩

/-- Settles O32: n + 9 rounded up to a multiple of 64. -/
theorem paddedMessageBlocks : Obligations.PaddedMessageBlocks := by
  intro m
  simp only [paddedMessage, List.length_append, List.length_cons, zeros_length, bitLengthBytes_length, zeroCount]
  omega

/-! ### The steps of FINAL on readable pending bytes (R94) -/

theorem compressBuffer_of_read {s : State} {block : List Byte} (h : memRead s.buf 0 64 = some block) :
    compressBuffer s = some (compressInto block s) := compressBuffer_eq_some.2 ⟨block, h, rfl⟩

/-- Steps 1 and 2 put one byte behind those pending. -/
theorem padStart_read {s : State} {pending : List Byte} (h : memRead s.buf 0 s.pl.toNat = some pending) :
    memRead (padStart s).buf 0 (s.pl.toNat + 1) = some (pending ++ [0x80]) :=
  memRead_memWrite_append [0x80] h

/-- t holds the hash, and the counter of s. -/
def HashedTo (s : State) (hash : HashState) (t : State) : Prop := t.h = hash ∧ t.cH = s.cH ∧ t.cL = s.cL

/-- Step 3 does nothing where the length field has room. -/
theorem closeBlock_of_le {s : State} {j : Nat} (hj : j ≤ 56) : closeBlock s j = some (s, j) := by
  rw [closeBlock, lengthOffset, if_neg (by omega)]

/-- Otherwise it fills and compresses the block. -/
theorem closeBlock_of_gt {s : State} {j : Nat} {bytes : List Byte} (h : memRead s.buf 0 j = some bytes) (hlow : 56 < j)
    (hhigh : j ≤ 64) :
    ∃ t, closeBlock s j = some (t, 0) ∧ HashedTo s (compress s.h (bytes ++ zeros (64 - j))) t := by
  have hread := memRead_memWrite_append (zeros (64 - j)) h
  rw [zeros_length, Nat.add_sub_cancel' hhigh] at hread
  rw [closeBlock, lengthOffset, if_pos hlow, bufSize, compressBuffer_of_read hread]
  exact ⟨_, rfl, rfl, rfl, rfl⟩

/-- Steps 4 to 6 on a block with room for the length field. -/
theorem closeMessage_of_read {s : State} {j : Nat} {bytes : List Byte} (h : memRead s.buf 0 j = some bytes) (hj : j ≤ 56) :
    ∃ u, closeMessage s j = some u ∧
      HashedTo s (compress s.h (bytes ++ (zeros (56 - j) ++ lengthField s.cH s.cL))) u := by
  have hread := memRead_memWrite_append (zeros (56 - j)) h
  rw [zeros_length, Nat.add_sub_cancel' hj] at hread
  have hblock := memRead_memWrite_append (lengthField s.cH s.cL) hread
  rw [List.append_assoc] at hblock
  rw [closeMessage, lengthOffset, compressBuffer_of_read hblock]
  exact ⟨_, rfl, rfl, rfl, rfl⟩

/-- Room for the length field: one block. -/
theorem padAndCompress_of_le {s : State} {pending : List Byte} (h : memRead s.buf 0 s.pl.toNat = some pending)
    (hpl : s.pl.toNat ≤ 55) :
    ∃ u, padAndCompress s = some u ∧ HashedTo (padStart s) (compress s.h (pending ++ 0x80 ::
      (zeros (55 - s.pl.toNat) ++ lengthField (padStart s).cH (padStart s).cL))) u := by
  obtain ⟨u, hu, hhash⟩ := closeMessage_of_read (padStart_read h) (by omega)
  rw [List.append_assoc, show 56 - (s.pl.toNat + 1) = 55 - s.pl.toNat by omega] at hhash
  refine ⟨u, ?_, hhash⟩
  rw [padAndCompress, closeBlock_of_le (by omega), Option.bind_some, hu]

/-- No room for it: the second block starts empty. -/
theorem padAndCompress_of_ge {s : State} {pending : List Byte} (h : memRead s.buf 0 s.pl.toNat = some pending)
    (hpl : 56 ≤ s.pl.toNat) :
    ∃ u, padAndCompress s = some u ∧ HashedTo (padStart s)
      (compress (compress s.h (pending ++ 0x80 :: zeros (63 - s.pl.toNat)))
        (zeros 56 ++ lengthField (padStart s).cH (padStart s).cL)) u := by
  have hlt := s.pl.isLt
  obtain ⟨t, ht, hth, htH, htL⟩ := closeBlock_of_gt (padStart_read h) (by omega) hlt
  obtain ⟨u, hu, huh, huH, huL⟩ := closeMessage_of_read (memRead_zero t.buf 0) (Nat.zero_le 56)
  rw [List.append_assoc, show 64 - (s.pl.toNat + 1) = 63 - s.pl.toNat by omega] at hth
  rw [hth, htH, htL] at huh
  refine ⟨u, ?_, huh, huH.trans htH, huL.trans htL⟩
  rw [padAndCompress, ht, Option.bind_some, hu]

/-! ### The state FINAL leaves (R94, R102) -/

/-- FINAL has a next state, which holds the hash, the counter advanced by pl and no buffer byte, and answers the digest. -/
def FinalCompletes (s : State) (hash : HashState) : Prop :=
  ∃ t, exec .final s = .next t ∧ Responding (serialise t.h) t ∧ t.phase = .finalized ∧
    t.cH = (padStart s).cH ∧ t.cL = (padStart s).cL ∧ t.h = hash ∧ (∀ j, Memory.read t.buf j = none) ∧ sameHost s t

theorem serialise_ne_nil (hash : HashState) : serialise hash ≠ [] :=
  List.ne_nil_of_length_pos (by rw [serialise_length]; decide)

theorem finalCompletes_of_padAndCompress {s u : State} {hash : HashState} (hf : s.fault = none) (hp : s.phase = .absorbing)
    (hu : padAndCompress s = some u) (hhash : HashedTo (padStart s) hash u) : FinalCompletes s hash := by
  obtain ⟨hh, hH, hL⟩ := hhash
  have hc := padAndCompress_channels hu
  exact ⟨_, execFinal_eq_next.2 ⟨hf, .inr ⟨hp, u, hu, rfl⟩⟩,
    responding_complete (hc.fault.trans hf) (serialise_ne_nil u.h), rfl, hH, hL, hh, fun _ => rfl, hc.host, hc.received⟩

/-- Settles O28: one block, since the length field has room behind the 0x80 byte. -/
theorem finalOneBlock : Obligations.FinalOneBlock := by
  intro s pending hf hp hread hpl
  obtain ⟨u, hu, hhash⟩ := padAndCompress_of_le hread hpl
  exact finalCompletes_of_padAndCompress hf hp hu hhash

/-- Settles O29: two blocks, since the length field has no room behind the 0x80 byte. -/
theorem finalTwoBlocks : Obligations.FinalTwoBlocks := by
  intro s pending hf hp hread hpl
  obtain ⟨u, hu, hhash⟩ := padAndCompress_of_ge hread hpl
  exact finalCompletes_of_padAndCompress hf hp hu hhash

/-! ### The digest of the whole message (R97, R103) -/

theorem hashBlocks_cons_block {block : List Byte} (hlen : block.length = 64) (n : Nat) (m : List Byte) (v : HashState) :
    hashBlocks (n + 1) (block ++ m) v = hashBlocks n m (compress v block) := by
  rw [hashBlocks, List.take_left' hlen, List.drop_left' hlen]

theorem hashBlocks_one {block : List Byte} (hlen : block.length = 64) (v : HashState) :
    hashBlocks 1 block v = compress v block := by
  rw [hashBlocks, List.take_of_length_le hlen.le, hashBlocks]

/-- What stands behind the last n bytes of a message, up to the end of its padding (R97). -/
def padding (n : Nat) (lengthBytes : List Byte) : List Byte := 0x80 :: (zeros (zeroCount n) ++ lengthBytes)

theorem padding_mod (n : Nat) (lengthBytes : List Byte) : padding (n % 64) lengthBytes = padding n lengthBytes := by
  rw [padding, zeroCount_mod, padding]

theorem paddedMessage_eq (m : List Byte) : paddedMessage m = m ++ padding m.length (bitLengthBytes m.length) := rfl

/-- One block or two, FINAL hashes the pending bytes followed by their padding. -/
theorem finalCompletes_hashBlocks {s : State} {pending : List Byte} (hf : s.fault = none) (hp : s.phase = .absorbing)
    (h : memRead s.buf 0 s.pl.toNat = some pending) :
    FinalCompletes s (hashBlocks ((s.pl.toNat + 9 + 63) / 64)
      (pending ++ padding s.pl.toNat (lengthField (padStart s).cH (padStart s).cL)) s.h) := by
  have hlen := memRead_length h
  have hlt := s.pl.isLt
  by_cases hpl : s.pl.toNat ≤ 55
  · have hone : (s.pl.toNat + 9 + 63) / 64 = 1 := by omega
    rw [padding, zeroCount_of_le hpl, hone, hashBlocks_one (by simp; omega)]
    exact finalOneBlock s pending hf hp h hpl
  · have htwo : (s.pl.toNat + 9 + 63) / 64 = 2 := by omega
    have hsplit : pending ++ padding s.pl.toNat (lengthField (padStart s).cH (padStart s).cL) =
        (pending ++ 0x80 :: zeros (63 - s.pl.toNat)) ++ (zeros 56 ++ lengthField (padStart s).cH (padStart s).cL) := by
      rw [padding, zeroCount_of_ge (by omega) hlt, zeros_add]
      simp
    rw [htwo, hsplit, hashBlocks_cons_block (by simp; omega), hashBlocks_one rfl]
    exact finalTwoBlocks s pending hf hp h (by omega)

/-- R95: the counter FINAL leaves. -/
theorem count64_padStart (s : State) :
    count64 (padStart s).cH (padStart s).cL = count64 s.cH s.cL + BitVec.ofNat 64 s.pl.toNat := by
  rw [padStart_cH, padStart_cL, count64_add64]
  congr 1
  apply BitVec.eq_of_toNat_eq
  simp

/-- Settles O30: pl is below 64, so a counter aligned to 64 has no carry. -/
theorem finalCountsPending : Obligations.FinalCountsPending := by
  intro s pending hf hp hread
  obtain ⟨t, ht, -, -, hH, hL, -⟩ := finalCompletes_hashBlocks hf hp hread
  refine ⟨t, ht, ?_, fun halign => ?_⟩
  · rw [hH, hL, count64_padStart, BitVec.toNat_add, BitVec.toNat_ofNat, Nat.add_mod_mod]
  · have hpl := s.pl.isLt
    have hcarry : s.cL.toNat + (s.pl.zeroExtend 32).toNat < 2 ^ 32 := by
      rw [BitVec.toNat_setWidth_of_le (by decide)]
      omega
    rw [hH, padStart_cH, add64_high, if_pos hcarry]
    exact BitVec.add_zero _

/-- A context that holds m counts its bytes once those pending are added (R32, R95). -/
theorem count64_padStart_of_absorbed {s : State} {m : List Byte} (h : Absorbed s m) :
    count64 (padStart s).cH (padStart s).cL = BitVec.ofNat 64 m.length := by
  rw [count64_padStart, h.count, h.pending, ← BitVec.ofNat_add, Nat.div_add_mod]

/-- The blocks of the padded message are the whole blocks of m, then those of its tail and padding. -/
theorem hashBlocks_paddedMessage (m : List Byte) (v : HashState) :
    hashBlocks ((paddedMessage m).length / 64) (paddedMessage m) v =
      hashBlocks ((m.length % 64 + 9 + 63) / 64)
        (m.drop (64 * (m.length / 64)) ++ padding (m.length % 64) (bitLengthBytes m.length))
        (hashBlocks (m.length / 64) m v) := by
  have hle : 64 * (m.length / 64) ≤ m.length := Nat.mul_div_le _ _
  have hcount : (paddedMessage m).length / 64 = m.length / 64 + (m.length % 64 + 9 + 63) / 64 := by
    rw [paddedMessageBlocks m]
    omega
  rw [hcount, hashBlocks_add, paddedMessage_eq, hashBlocks_append _ v hle, List.drop_append_of_le_length hle, padding_mod]

/-- Settles O33: the hash of m's whole blocks is in H, and FINAL hashes the rest of the padded message. -/
theorem finalEmitsMessageDigest : Obligations.FinalEmitsMessageDigest := by
  intro s m hf hm
  have hcount := count64_padStart_of_absorbed hm
  obtain ⟨t, ht, hresponse, hphase, hH, hL, hhash, -, hhost⟩ := finalCompletes_hashBlocks hf hm.phase hm.buffer
  have hdigest : serialise t.h = messageDigest m := by
    rw [messageDigest, hashBlocks_paddedMessage, hhash, lengthField_eq_bitLengthBytes hcount, hm.pending, hm.hash]
  refine ⟨t, ht, hdigest ▸ hresponse, hphase, hdigest, ?_, hhost⟩
  rw [hH, hL, hcount, BitVec.toNat_ofNat]

end Sys2Proof.Proofs
end

section
/-! PROOFS. No unwritten byte is read (spec/00_scope.md R12, spec/43_final.md R94): where the unwritten-read stop can come
from, and that readable pending bytes shut it out. -/

namespace Sys2Proof.Proofs

open Sys2Proof.Machine

/-! ### What can stop with a fault -/

theorem unlessFaulted_eq_unwrittenRead {s : State} {k : Host.Outcome State Fault Refusal}
    (h : unlessFaulted s k = .fault .unwrittenRead) : s.fault = none ∧ k = .fault .unwrittenRead := by
  cases hf : s.fault with
  | none => exact ⟨rfl, (unlessFaulted_none k hf).symm.trans h⟩
  | some r => cases (unlessFaulted_some k hf).symm.trans h

theorem requireAbsorbing_eq_fault {i : Instr} {s : State} {f : Fault} {k : Host.Outcome State Fault Refusal}
    (h : requireAbsorbing i s k = .fault f) : s.phase = .absorbing ∧ k = .fault f := by
  by_cases hp : s.phase = .absorbing
  · exact ⟨hp, (requireAbsorbing_absorbing k hp).symm.trans h⟩
  · cases (requireAbsorbing_other k hp).symm.trans h

theorem stuck_ne_unwrittenRead (s : State) : stuck s ≠ .fault .unwrittenRead := by
  rw [stuck]
  split <;> simp

/-- Only a legal command stops a performed word. -/
theorem perform_eq_fault {w : Word} {s : State} {f : Fault} (h : perform w s = .fault f) : ∃ i, exec i s = .fault f := by
  rw [perform] at h
  split at h
  · exact ⟨_, h⟩
  · cases h

/-- A step that reads an unwritten byte performs a command word on the same context. -/
theorem step_unwrittenRead {s : State} (h : step s = .fault .unwrittenRead) :
    ∃ w u, sameContext s u ∧ perform w u = .fault .unwrittenRead := by
  rw [step] at h
  split at h
  · cases h
  · obtain ⟨-, h⟩ := unlessFaulted_eq_unwrittenRead h
    rw [takeCommand] at h
    split at h
    · exact ⟨_, _, accept_context _ _ _ s, h⟩
    · exact absurd h (stuck_ne_unwrittenRead s)
  · obtain ⟨-, h⟩ := unlessFaulted_eq_unwrittenRead h
    rw [takeData] at h
    split at h
    · cases h
    · split at h
      · exact ⟨_, _, receive_context _ _ _ s, h⟩
      · cases h
  · obtain ⟨-, h⟩ := unlessFaulted_eq_unwrittenRead h
    rw [takeRead] at h
    split at h <;> cases h
  · obtain ⟨-, h⟩ := unlessFaulted_eq_unwrittenRead h
    rw [idle] at h
    split at h
    · cases h
    · exact absurd h (stuck_ne_unwrittenRead s)

/-! ### Readable pending bytes -/

/-- While a message is open, all its pending bytes are in the buffer. -/
def PendingReadable (s : State) : Prop := s.phase = .absorbing → ∃ pending, memRead s.buf 0 s.pl.toNat = some pending

theorem PendingReadable.of_sameContext {s t : State} (hc : sameContext s t) (h : PendingReadable s) :
    PendingReadable t := by
  obtain ⟨-, -, -, hbuf, hpl, hphase⟩ := hc
  rwa [PendingReadable, hbuf, hpl, hphase]

/-- A buffer that lists exactly the pending bytes holds each of them. -/
theorem memRead_of_pendingExact {s : State} (h : PendingExact s) : ∃ pending, memRead s.buf 0 s.pl.toNat = some pending := by
  refine Option.isSome_iff_exists.1 ((memRead_isSome _ _ _).2 fun i hi => ?_)
  rw [Memory.read_isSome, h, Nat.zero_add]
  exact List.mem_range.2 hi

/-- UPDATE and FINAL, the two commands that read the buffer, have a next state on readable pending bytes. -/
theorem exec_ne_unwrittenRead {s : State} (hs : PendingReadable s) (i : Instr) : exec i s ≠ .fault .unwrittenRead := by
  intro h
  cases i with
  | init | size => cases (unlessFaulted_eq_unwrittenRead h).2
  | update len =>
    obtain ⟨-, hbody⟩ := unlessFaulted_eq_unwrittenRead h
    obtain ⟨hp, hbody⟩ := requireAbsorbing_eq_fault hbody
    obtain ⟨pending, hread⟩ := hs hp
    obtain ⟨t, ht, -⟩ := absorb_taken (s.din.take len) hread
    rw [ht] at hbody
    split at hbody <;> cases hbody
  | final =>
    obtain ⟨hf, hbody⟩ := unlessFaulted_eq_unwrittenRead h
    obtain ⟨hp, -⟩ := requireAbsorbing_eq_fault hbody
    obtain ⟨pending, hread⟩ := hs hp
    obtain ⟨t, ht, -⟩ := finalCompletes_hashBlocks hf hp hread
    cases ht.symm.trans h

/-- Settles O54: the invariant keeps the pending bytes readable, and a step reads them only in a command. -/
theorem noUnwrittenRead : Obligations.NoUnwrittenRead := by
  intro s hinv
  have hs : PendingReadable s := fun hp => memRead_of_pendingExact (hinv.pendingExact hp)
  refine ⟨exec_ne_unwrittenRead hs, fun h => ?_⟩
  obtain ⟨w, u, hc, hw⟩ := step_unwrittenRead h
  obtain ⟨i, hi⟩ := perform_eq_fault hw
  exact exec_ne_unwrittenRead (hs.of_sameContext hc) i hi

end Sys2Proof.Proofs
end

section
/-! PROOFS. The two faults (spec/60_exceptions.md R106 to R108): FINAL outside phase ABSORBING, and the acceptance of a word
that decodes to Illegal, then the two obligations. -/

namespace Sys2Proof.Proofs

open Sys2Proof.Machine

/-! ### Misuse (R106) -/

theorem exec_final_misuse {s : State} (hf : s.fault = none) (hp : s.phase ≠ .absorbing) :
    exec .final s = .next (recordFault (.misuse (encode .final)) s) :=
  execFinal_eq_next.2 ⟨hf, .inl ⟨hp, rfl⟩⟩

/-- Settles O35: outside ABSORBING, UPDATE and FINAL answer with the record of their own word alone; INIT and SIZE keep the
record as it was. -/
theorem misuseRaised : Obligations.MisuseRaised := by
  refine fun s hf => ⟨fun hp => ⟨fun len => ⟨_, exec_update_misuse len hf hp, faulted_recordFault _ s⟩,
    _, exec_final_misuse hf hp, ?_⟩, fun t h => ?_⟩
  · have hword : encode .final = 0x00000003 := by decide
    exact hword ▸ faulted_recordFault _ s
  · obtain hinit | hsize := h
    · obtain ⟨-, rfl⟩ := execInit_eq_next.1 hinit
      exact hf
    · obtain ⟨-, rfl⟩ := execSize_eq_next.1 hsize
      exact hf

/-! ### IllegalCommand (R107, R108) -/

/-- A ready engine without a fault accepts the word the Host offers and performs it (R126). -/
theorem step_command {s : State} {w : Word} {payload : List Byte} {rest : List HostMove} (hf : s.fault = none)
    (hr : s.ready = true) (hh : s.host = .command w payload :: rest) : step s = perform w (accept w payload rest s) := by
  rw [step, hh]
  exact (unlessFaulted_none _ hf).trans (if_pos hr)

theorem perform_illegal {w : Word} (h : ∃ e, decode w = .error e) (s : State) :
    perform w s = .next (recordFault (.illegalCommand w) s) :=
  perform_eq_next.2 (.inr ⟨h, rfl⟩)

/-- An Illegal word announces no payload (R107). -/
theorem payloadLength_illegal {w : Word} (h : ∃ e, decode w = .error e) : payloadLength w = 0 := by
  obtain ⟨e, he⟩ := h
  rw [payloadLength, he]

/-- So accepting it takes nothing from DIN. -/
theorem accept_illegal_host {w : Word} (h : ∃ e, decode w = .error e) (payload : List Byte) (rest : List HostMove)
    (s : State) : (accept w payload rest s).host = offerAgain payload rest := by
  rw [accept_host, payloadLength_illegal h, List.drop_zero]

/-- Settles O36: each ground makes the word decode to Illegal, and performing such a word records it in the accepting state,
whose context, internal registers and DOUT are those before. -/
theorem illegalCommandRaised : Obligations.IllegalCommandRaised := by
  intro s w payload rest op rsv len hf hr hh hground
  have hillegal : ∃ e, decode w = .error e := exists_decode_eq_error_iff_toNat.2 hground
  exact ⟨_, (step_command hf hr hh).trans (perform_illegal hillegal _), faulted_recordFault _ (accept w payload rest s),
    accept_illegal_host hillegal payload rest s⟩

end Sys2Proof.Proofs
end

section
/-! PROOFS. Reset and whole sessions (spec/70_reset_and_hazards.md R123, R124): the message that INIT and any UPDATEs leave
in the context, and the commands in the state after a reset. -/

namespace Sys2Proof.Proofs

open Sys2Proof.Machine

/-! ### A session (R124) -/

/-- One UPDATE a chunk completes, and extends the message held by the chunks joined. -/
theorem absorbChunks_absorbed (chunks : List (List Byte)) {s : State} {m : List Byte} (hf : s.fault = none)
    (h : Absorbed s m) :
    ∃ t, absorbChunks chunks s = .next t ∧ t.fault = none ∧ Absorbed t (m ++ chunks.flatten) := by
  induction chunks generalizing s m with
  | nil => exact ⟨s, rfl, hf, by rwa [List.flatten_nil, List.append_nil]⟩
  | cons c cs ih =>
    have hdin : Absorbed { s with din := c } m :=
      absorbed_of_sameContext (s := s) ⟨rfl, rfl, rfl, rfl, rfl, rfl⟩ h
    obtain ⟨t, ht, ⟨htf, -⟩, hmc, -⟩ := updateExtendsMessage { s with din := c } m hf hdin
    obtain ⟨u, hu, huf, hall⟩ := ih htf hmc
    refine ⟨u, ?_, huf, ?_⟩
    · rw [absorbChunks, ht]
      exact hu
    · rwa [List.flatten_cons, ← List.append_assoc]

/-- Settles O34: INIT opens the empty message, the UPDATEs extend it by every chunk, and FINAL emits its digest. -/
theorem sessionHashesMessage : Obligations.SessionHashesMessage := by
  intro s chunks hf
  have hopen : Absorbed (complete [] (initContext s)) [] :=
    absorbed_of_sameContext (complete_context [] _) (initContext_absorbed s)
  obtain ⟨u, hu, huf, hm⟩ := absorbChunks_absorbed chunks (s := complete [] (initContext s)) hf hopen
  obtain ⟨v, hv, ⟨-, -, -, -, hdigest⟩, -⟩ := finalEmitsMessageDigest u _ huf hm
  exact ⟨_, u, v, exec_init hf, hu, hv, hdigest⟩

/-! ### After a reset (R123) -/

theorem step_reset_phase_fault {s t : State} {rest : List HostMove} (hh : s.host = .reset :: rest)
    (h : step s = .next t) : t.phase = .uninit ∧ t.fault = none := by
  obtain rfl := Host.Outcome.next.inj ((step_reset hh).symm.trans h)
  exact ⟨rfl, rfl⟩

/-- Settles O42: a reset leaves phase UNINIT and no record, where UPDATE and FINAL are Misuse, and SIZE and INIT complete as
in every state without a record. -/
theorem bootRequirement : Obligations.BootRequirement := by
  intro s t rest hh h
  obtain ⟨hphase, hf⟩ := step_reset_phase_fault hh h
  have hp : t.phase ≠ .absorbing := by simp [hphase]
  exact ⟨fun len => ⟨_, exec_update_misuse len hf hp, faulted_recordFault _ t⟩,
    ⟨_, exec_final_misuse hf hp, faulted_recordFault _ t⟩, ⟨_, exec_size hf, hf⟩, _, exec_init hf, rfl⟩

end Sys2Proof.Proofs
end

section
/-! PROOFS. The invariant of the machine (spec/10_state.md R17 to R19, spec/60_exceptions.md R105,
spec/70_reset_and_hazards.md R126 to R128): its part about the hash context, the four modes its part about the channels
allows, what a command and a step leave of each, then the obligations on the invariant and on the channels at a fault. -/

namespace Sys2Proof.Proofs

open Sys2Proof.Machine

/-! ### The hash context -/

/-- What the invariant says of the buffer and the counter. -/
structure ContextInv (s : State) : Prop where
  pendingExact : s.phase = .absorbing → PendingExact s
  bufferEmpty : s.phase ≠ .absorbing → s.buf = []
  countAligned : s.phase = .absorbing → s.cL.toNat % 64 = 0

theorem ContextInv.of_sameContext {s t : State} (hc : sameContext s t) (h : ContextInv s) : ContextInv t := by
  obtain ⟨-, -, hL, hbuf, hpl, hphase⟩ := hc
  obtain ⟨hexact, hempty, halign⟩ := h
  refine ⟨?_, ?_, ?_⟩
  · rwa [PendingExact, hbuf, hpl, hphase]
  · rwa [hbuf, hphase]
  · rwa [hL, hphase]

/-- Outside phase ABSORBING an empty buffer is all the invariant asks of the context. -/
theorem ContextInv.of_not_absorbing {s : State} (hp : s.phase ≠ .absorbing) (hbuf : s.buf = []) : ContextInv s :=
  ⟨fun h => absurd h hp, fun _ => hbuf, fun h => absurd h hp⟩

/-- 2^32 is a multiple of 64, so C and cL are equal modulo 64. -/
theorem count64_mod (cH cL : Word) : (count64 cH cL).toNat % 64 = cL.toNat % 64 := by
  rw [count64_toNat]
  omega

/-- UPDATE's body counts whole blocks (R89). -/
theorem absorb_countAligned {input : List Byte} {s u : State} (hs : PendingExact s) (halign : s.cL.toNat % 64 = 0)
    (h : absorb input s = some u) : u.cL.toNat % 64 = 0 := by
  obtain ⟨pending, hread⟩ := memRead_of_pendingExact hs
  obtain ⟨v, hv, htaken⟩ := absorb_taken input hread
  obtain rfl : v = u := Option.some.inj (hv.symm.trans h)
  rw [← count64_mod s.cH] at halign
  rw [← count64_mod v.cH, htaken.count, BitVec.toNat_add, BitVec.toNat_ofNat]
  omega

theorem exec_contextInv {i : Instr} {s t : State} (hs : ContextInv s) (h : exec i s = .next t) : ContextInv t := by
  cases i with
  | init =>
    obtain ⟨-, rfl⟩ := execInit_eq_next.1 h
    exact ⟨fun _ => rfl, fun hp => absurd rfl hp, fun _ => rfl⟩
  | update len =>
    obtain ⟨-, ⟨-, rfl⟩ | ⟨-, -, rfl⟩ | ⟨hp, -, u, hu, rfl⟩⟩ := execUpdate_eq_next.1 h
    · exact hs.of_sameContext (recordFault_context _ s)
    · exact hs.of_sameContext (awaitPayload_context _ s)
    · have hexact := hs.pendingExact hp
      have hphase : u.phase = .absorbing := (absorb_channels hu).phase.trans hp
      exact ⟨fun _ => (absorb_pendingExact hexact hu :), fun hne => absurd hphase hne,
        fun _ => (absorb_countAligned hexact (hs.countAligned hp) hu :)⟩
  | final =>
    obtain ⟨-, ⟨-, rfl⟩ | ⟨-, u, -, rfl⟩⟩ := execFinal_eq_next.1 h
    · exact hs.of_sameContext (recordFault_context _ s)
    · exact .of_not_absorbing Phase.noConfusion rfl
  | size =>
    obtain ⟨-, rfl⟩ := execSize_eq_next.1 h
    exact hs.of_sameContext (complete_context _ s)

theorem perform_contextInv {w : Word} {s t : State} (hs : ContextInv s) (h : perform w s = .next t) : ContextInv t := by
  obtain ⟨i, -, hi⟩ | ⟨-, rfl⟩ := perform_eq_next.1 h
  · exact exec_contextInv hs hi
  · exact hs.of_sameContext (recordFault_context _ s)

theorem step_contextInv {s t : State} (hs : ContextInv s) (h : step s = .next t) : ContextInv t := by
  obtain ⟨rest, -, rfl⟩ | ⟨-, ⟨hc, -⟩ | ⟨w, u, hc, hw⟩⟩ := step_next_cases h
  · exact .of_not_absorbing Phase.noConfusion rfl
  · exact hs.of_sameContext hc
  · exact perform_contextInv (hs.of_sameContext hc) hw

/-! ### The modes of the channels -/

/-- No command is in progress, and READY stays 0: the channels once a fault is recorded (log 9). -/
def ChannelsHeld (s : State) : Prop := s.ready = false ∧ s.cmd = none ∧ s.din = []

/-- The word of an UPDATE(len) is in progress, with fewer than len bytes on DIN (R127). -/
def Waiting (w : Word) (len : Nat) (s : State) : Prop :=
  s.phase = .absorbing ∧ s.fault = none ∧ s.ready = false ∧ s.cmd = some w ∧ decode w = .ok (.update len) ∧
    s.din.length < len ∧ s.dout = []

/-- What the invariant says of the channels: one of four modes. -/
inductive ChannelMode (s : State) : Prop where
  | idle (h : Ended s)
  | responding (bytes : List Byte) (hne : bytes ≠ []) (hle : bytes.length ≤ 32) (h : Responding bytes s)
  | waiting (w : Word) (len : Nat) (h : Waiting w len s)
  | faulted (hf : s.fault ≠ none) (h : ChannelsHeld s) (hd : s.dout = [])

theorem contextInv_of_inv {s : State} (h : Inv s) : ContextInv s := ⟨h.pendingExact, h.bufferEmpty, h.countAligned⟩

theorem channelMode_of_inv {s : State} (h : Inv s) : ChannelMode s := by
  cases hr : s.ready with
  | true =>
    obtain ⟨hc, hd, hf⟩ := h.readyIdle hr
    exact .idle ⟨hf, hr, hc, h.dinIdle hc, hd⟩
  | false =>
    cases hc : s.cmd with
    | some w =>
      obtain ⟨hp, hd, hf, len, hw, hlt⟩ := h.waiting w hc
      exact .waiting w len ⟨hp, hf, hr, hc, hw, hlt, hd⟩
    | none =>
      by_cases hf : s.fault = none
      · have hne : s.dout ≠ [] := by simpa [hc, hf] using h.busyReason hr
        exact .responding s.dout hne h.pendingBound ⟨hf, hr, hc, h.dinIdle hc, rfl⟩
      · exact .faulted hf ⟨hr, hc, h.dinIdle hc⟩ (h.faultSilent hf)

theorem inv_of_channelMode {s : State} (hs : ContextInv s) (h : ChannelMode s) : Inv s := by
  obtain ⟨hexact, hempty, halign⟩ := hs
  cases h with
  | idle h =>
    obtain ⟨hf, hr, hc, hdin, hd⟩ := h
    exact ⟨hexact, hempty, halign, fun _ => ⟨hc, hd, hf⟩, by simp [hr], by simp [hc], fun _ => hdin, fun _ => hd,
      by simp [State.respPending, hd]⟩
  | responding bytes hne hle h =>
    obtain ⟨hf, hr, hc, hdin, rfl⟩ := h
    exact ⟨hexact, hempty, halign, by simp [hr], fun _ => .inr (.inl hne), by simp [hc], fun _ => hdin,
      fun hne => absurd hf hne, hle⟩
  | waiting w len h =>
    obtain ⟨hp, hf, hr, hc, hw, hlt, hd⟩ := h
    refine ⟨hexact, hempty, halign, by simp [hr], fun _ => .inl (by simp [hc]), fun w' hc' => ?_, by simp [hc],
      fun _ => hd, by simp [State.respPending, hd]⟩
    obtain rfl : w = w' := Option.some.inj (hc.symm.trans hc')
    exact ⟨hp, hd, hf, len, hw, hlt⟩
  | faulted hf h hd =>
    obtain ⟨hr, hc, hdin⟩ := h
    exact ⟨hexact, hempty, halign, by simp [hr], fun _ => .inr (.inr hf), by simp [hc], fun _ => hdin, fun _ => hd,
      by simp [State.respPending, hd]⟩

theorem inv_iff {s : State} : Inv s ↔ ContextInv s ∧ ChannelMode s :=
  ⟨fun h => ⟨contextInv_of_inv h, channelMode_of_inv h⟩, fun ⟨hs, h⟩ => inv_of_channelMode hs h⟩

/-! ### What a command leaves on the channels -/

/-- A command with a next state records a fault, waits for payload, or completes with at most 32 response bytes (R36). -/
theorem exec_next_cases {i : Instr} {s t : State} (h : exec i s = .next t) :
    (∃ r, t = recordFault r s) ∨
    (∃ len, i = .update len ∧ s.phase = .absorbing ∧ s.fault = none ∧ s.din.length < len ∧ t = awaitPayload (encode i) s) ∨
    ∃ bytes u, bytes.length ≤ 32 ∧ u.fault = none ∧ t = complete bytes u := by
  cases i with
  | init =>
    obtain ⟨hf, rfl⟩ := execInit_eq_next.1 h
    exact .inr (.inr ⟨[], initContext s, Nat.zero_le _, hf, rfl⟩)
  | update len =>
    obtain ⟨hf, ⟨-, rfl⟩ | ⟨hp, hlt, rfl⟩ | ⟨-, -, u, hu, rfl⟩⟩ := execUpdate_eq_next.1 h
    · exact .inl ⟨_, rfl⟩
    · exact .inr (.inl ⟨len, rfl, hp, hf, hlt, rfl⟩)
    · exact .inr (.inr ⟨[], u, Nat.zero_le _, (absorb_channels hu).fault.trans hf, rfl⟩)
  | final =>
    obtain ⟨hf, ⟨-, rfl⟩ | ⟨-, u, hu, rfl⟩⟩ := execFinal_eq_next.1 h
    · exact .inl ⟨_, rfl⟩
    · exact .inr (.inr ⟨_, retire u, (serialise_length _).le, (padAndCompress_channels hu).fault.trans hf, rfl⟩)
  | size =>
    obtain ⟨hf, rfl⟩ := execSize_eq_next.1 h
    exact .inr (.inr ⟨bytesBE Config.ctxSize, s, (by decide : 4 ≤ 32), hf, rfl⟩)

theorem recordFault_held (r : FaultRecord) (s : State) : ChannelsHeld (recordFault r s) := ⟨rfl, rfl, rfl⟩

theorem recordFault_channelMode (r : FaultRecord) {s : State} (hd : s.dout = []) : ChannelMode (recordFault r s) :=
  .faulted (by simp) (recordFault_held r s) hd

theorem complete_channelMode {bytes : List Byte} {s : State} (hf : s.fault = none) (hle : bytes.length ≤ 32) :
    ChannelMode (complete bytes s) := by
  by_cases hne : bytes = []
  · exact hne ▸ .idle (ended_complete hf)
  · exact .responding bytes hne hle (responding_complete hf hne)

/-- A word performed while no response is pending leaves one of the four modes. -/
theorem perform_channelMode {w : Word} {s t : State} (hd : s.dout = []) (h : perform w s = .next t) :
    ChannelMode t := by
  obtain ⟨i, hw, hi⟩ | ⟨-, rfl⟩ := perform_eq_next.1 h
  · obtain ⟨r, rfl⟩ | ⟨len, rfl, hp, hf, hlt, rfl⟩ | ⟨bytes, u, hle, hf, rfl⟩ := exec_next_cases hi
    · exact recordFault_channelMode r hd
    · have hword : decode (encode (.update len)) = .ok (.update len) := decode_encode (wellFormed_of_decode hw)
      exact .waiting _ len ⟨hp, hf, rfl, rfl, hword, hlt, hd⟩
    · exact complete_channelMode hf hle
  · exact recordFault_channelMode _ hd

/-! ### What a step leaves on the channels -/

theorem ChannelMode.set_host {s : State} (h : ChannelMode s) (rest : List HostMove) :
    ChannelMode { s with host := rest } := by
  cases h with
  | idle h => exact .idle h
  | responding bytes hne hle h => exact .responding bytes hne hle h
  | waiting w len h => exact .waiting w len h
  | faulted hf h hd => exact .faulted hf h hd

/-- A delivery runs the command in progress again, or is empty. -/
theorem takeData_channelMode {bytes : List Byte} {rest : List HostMove} {s t : State} (hs : Inv s)
    (h : takeData bytes rest s = .next t) : ChannelMode t := by
  rw [takeData] at h
  split at h
  · obtain rfl := Host.Outcome.next.inj h
    exact (channelMode_of_inv hs).set_host rest
  · split at h
    · rename_i w hc
      obtain ⟨-, hd, -⟩ := hs.waiting w hc
      exact perform_channelMode (s := receive w bytes rest s) hd h
    · cases h

/-- Only a response can be read; with its last byte the engine is idle. -/
theorem takeRead_channelMode {rest : List HostMove} {s t : State} (hs : ChannelMode s)
    (h : takeRead rest s = .next t) : ChannelMode t := by
  rw [takeRead] at h
  split at h
  · rename_i b bs hd
    obtain rfl := Host.Outcome.next.inj h
    cases hs with
    | idle h => simp [Ended, hd] at h
    | waiting w len h => simp [Waiting, hd] at h
    | faulted _ _ hempty => simp [hd] at hempty
    | responding bytes hne hle h =>
      obtain ⟨hf, hr, hc, hdin, hdout⟩ := h
      obtain rfl : b :: bs = bytes := hd.symm.trans hdout
      cases bs with
      | nil => exact .idle ⟨hf, by simp [hc], hc, hdin, rfl⟩
      | cons b' bs =>
        exact .responding (b' :: bs) (List.cons_ne_nil _ _) (Nat.le_of_succ_le hle) ⟨hf, rfl, hc, hdin, rfl⟩
  · cases h

theorem step_channelMode {s t : State} (hs : Inv s) (h : step s = .next t) : ChannelMode t := by
  obtain ⟨rest, -, hreset⟩ | ⟨-, ⟨-, -, rfl⟩ | ⟨w, p, rest, -, hr, hw⟩ | ⟨bytes, rest, -, hdata⟩ | ⟨rest, -, hread⟩⟩ :=
    step_eq_next h
  · obtain rfl := Host.Outcome.next.inj hreset
    exact .idle ⟨rfl, rfl, rfl, rfl, rfl⟩
  · exact channelMode_of_inv hs
  · obtain ⟨-, hd, -⟩ := hs.readyIdle hr
    exact perform_channelMode (s := accept w p rest s) hd hw
  · exact takeData_channelMode hs hdata
  · exact takeRead_channelMode (channelMode_of_inv hs) hread

/-- Settles O51: a step keeps the invariant of the context, and ends in one of the four modes. -/
theorem stepKeepsInvariant : Obligations.StepKeepsInvariant :=
  fun _ _ hs h => inv_iff.2 ⟨step_contextInv (contextInv_of_inv hs) h, step_channelMode hs h⟩

/-- Settles O52: after reset the engine is idle in phase UNINIT, with an empty buffer. -/
theorem resetMeetsInvariant : Obligations.ResetMeetsInvariant := by
  have hcontext : ContextInv State.reset := .of_not_absorbing Phase.noConfusion rfl
  exact inv_iff.2 ⟨hcontext, .idle ⟨rfl, rfl, rfl, rfl, rfl⟩⟩

/-! ### The channels at a fault (log 9) -/

theorem exec_held {i : Instr} {s t : State} (h : exec i s = .next t) (hf : t.fault ≠ none) : ChannelsHeld t := by
  obtain ⟨r, rfl⟩ | ⟨len, -, -, hnone, -, rfl⟩ | ⟨bytes, u, -, hnone, rfl⟩ := exec_next_cases h
  · exact recordFault_held r s
  · exact absurd hnone hf
  · exact absurd hnone hf

/-- Settles O38: only a performed word sets the record, and recording a fault holds the channels. -/
theorem faultHoldsChannels : Obligations.FaultHoldsChannels := by
  refine ⟨fun i s t h hf => exec_held h hf, fun s t h hf => ?_⟩
  obtain ⟨rest, -, rfl⟩ | ⟨-, ⟨-, hnone⟩ | ⟨w, u, -, hw⟩⟩ := step_next_cases h
  · exact absurd rfl hf
  · exact absurd hnone hf
  · obtain ⟨i, -, hi⟩ | ⟨-, rfl⟩ := perform_eq_next.1 hw
    · exact exec_held hi hf
    · exact recordFault_held _ u

end Sys2Proof.Proofs
end

section
/-! PROOFS. UPDATE cut into pieces (spec/42_update.md R90, R91): its body block by block, the body of a joined input, then
the two obligations. -/

namespace Sys2Proof.Proofs

open Sys2Proof.Machine

/-! ### The body of UPDATE, one block at a time (R89) -/

/-- With nothing pending, the body is steps (2) and (3) of R89. -/
theorem absorb_of_pl_zero {input : List Byte} {s : State} (h0 : s.pl = 0) :
    absorb input s = some
      (appendBytes (directBlocks (input.length / 64) input s).2 (directBlocks (input.length / 64) input s).1) :=
  absorb_eq_some.2 ⟨s, input, by rw [topUp, if_pos h0], rfl⟩

/-- The state once the input has completed the pending bytes to a block. -/
def afterBlock (pending input : List Byte) (s : State) : State :=
  emptyBuffer (absorbBlock (pending ++ input.take (64 - s.pl.toNat)) s)

theorem afterBlock_pendingExact (pending input : List Byte) (s : State) : PendingExact (afterBlock pending input s) := rfl

/-- With nothing pending and nothing in the buffer, step (2) of R89 leaves both so. -/
theorem emptyBuffer_of_empty {s : State} (h0 : s.pl = 0) (hbuf : s.buf = []) : emptyBuffer s = s :=
  State.ext rfl rfl rfl rfl rfl rfl hbuf.symm h0.symm rfl rfl rfl rfl rfl rfl rfl rfl rfl

/-- An input that fills a block, in step (1) or in step (2) of R89, is that block and then the body on the rest. -/
theorem absorb_of_ge {input pending : List Byte} {s : State} (hs : PendingExact s)
    (hread : memRead s.buf 0 s.pl.toNat = some pending) (hge : 64 ≤ s.pl.toNat + input.length) :
    absorb input s = absorb (input.drop (64 - s.pl.toNat)) (afterBlock pending input s) := by
  rw [absorb_of_pl_zero (s := afterBlock pending input s) rfl]
  obtain ⟨h0, -⟩ | ⟨-, hlt, -⟩ | ⟨-, -, e⟩ := topUp_cases input s
  · have hzero : s.pl.toNat = 0 := by rw [h0]; rfl
    have hbuf : s.buf = [] := by rwa [PendingExact, hzero, List.range_zero, List.map_eq_nil_iff] at hs
    obtain rfl : pending = [] := by simpa [hzero, eq_comm] using hread
    have hblock : afterBlock [] input s = absorbBlock (input.take 64) s := by
      rw [afterBlock, hzero]
      exact emptyBuffer_of_empty (s := absorbBlock (input.take 64) s) h0 hbuf
    have hcount : input.length / 64 = (input.drop 64).length / 64 + 1 := by rw [List.length_drop]; omega
    rw [absorb_of_pl_zero h0, hblock, hzero, hcount]
    rfl
  · omega
  · have hroom : (input.take (64 - s.pl.toNat)).length = 64 - s.pl.toNat := by rw [List.length_take]; omega
    have hblock := memRead_memWrite_append (input.take (64 - s.pl.toNat)) hread
    rw [hroom, Nat.add_sub_cancel' s.pl.isLt.le] at hblock
    rw [hblock, Option.map_some] at e
    exact absorb_eq_some.2 ⟨_, _, e, rfl⟩

/-! ### The body on a joined input -/

/-- A first part that fills no block: it is appended, and what follows finds it pending. -/
theorem absorb_append_of_lt {x : List Byte} {s : State} (y : List Byte) (hs : PendingExact s)
    (hlt : s.pl.toNat + x.length < 64) : absorb (x ++ y) s = absorb y (appendBytes x s) := by
  have hpl := appendBytes_pl_toNat hlt
  by_cases hall : s.pl.toNat + (x ++ y).length < 64
  · rw [absorb_of_lt hall, appendBytes_append x y s hlt, absorb_of_lt]
    rw [hpl]
    simpa [Nat.add_assoc] using hall
  · obtain ⟨pending, hread⟩ := memRead_of_pendingExact hs
    have hread' : memRead (appendBytes x s).buf 0 (appendBytes x s).pl.toNat = some (pending ++ x) := by
      rw [hpl]
      exact memRead_memWrite_append x hread
    have hle : x.length ≤ 64 - s.pl.toNat := by omega
    have hroom : 64 - s.pl.toNat - x.length = 64 - (s.pl.toNat + x.length) := by omega
    have hblock : afterBlock pending (x ++ y) s = afterBlock (pending ++ x) y (appendBytes x s) := by
      rw [afterBlock, afterBlock, hpl, List.take_append, List.take_of_length_le hle, hroom, List.append_assoc]
      rfl
    rw [List.length_append] at hall
    rw [absorb_of_ge hs hread (by rw [List.length_append]; omega),
      absorb_of_ge (appendBytes_pendingExact hs hlt) hread' (by rw [hpl]; omega), hblock, hpl, List.drop_append,
      List.drop_eq_nil_of_le hle, List.nil_append, hroom]

/-- The body on x ++ y is the body on x, then the body on y: by induction on the blocks x fills. -/
theorem absorb_append {x : List Byte} {s t : State} (y : List Byte) (hs : PendingExact s) (h : absorb x s = some t) :
    absorb (x ++ y) s = absorb y t := by
  by_cases hlt : s.pl.toNat + x.length < 64
  · obtain rfl : appendBytes x s = t := Option.some.inj ((absorb_of_lt hlt).symm.trans h)
    exact absorb_append_of_lt y hs hlt
  · obtain ⟨pending, hread⟩ := memRead_of_pendingExact hs
    have hpl := s.pl.isLt
    have hle : 64 - s.pl.toNat ≤ x.length := by omega
    have hblock : afterBlock pending (x ++ y) s = afterBlock pending x s := by
      rw [afterBlock, afterBlock, List.take_append_of_le_length hle]
    rw [absorb_of_ge hs hread (Nat.not_lt.1 hlt)] at h
    rw [absorb_of_ge hs hread (by rw [List.length_append]; omega), hblock, List.drop_append_of_le_length hle]
    exact absorb_append y (afterBlock_pendingExact pending x s) h
termination_by x.length
decreasing_by
  rw [List.length_drop]
  omega

/-! ### Byte by byte (R91) -/

/-- AbsorbByte is the body on one byte. -/
theorem absorbByte_eq_absorb (b : Byte) {s : State} (hs : PendingExact s) : absorbByte b s = absorb [b] s := by
  rw [absorbByte, bufSize]
  split
  · exact (absorb_of_lt ‹_›).symm
  · have hpl : s.pl.toNat = 63 := by have := s.pl.isLt; omega
    obtain ⟨pending, hread⟩ := memRead_of_pendingExact hs
    have hblock : memRead (Memory.write s.buf s.pl.toNat b) 0 64 = some (pending ++ [b]) := by
      have hfull := memRead_memWrite_append [b] hread
      rwa [hpl] at hfull ⊢
    rw [hblock, absorb_of_ge hs hread (by rw [hpl]; exact le_rfl), afterBlock, hpl]
    exact (absorb_nil _).symm

/-- Settles O25: by induction on the input, whose first byte AbsorbByte takes as the body does. -/
theorem updateByteSerialForm : Obligations.UpdateByteSerialForm := by
  intro s input hs
  induction input generalizing s with
  | nil => exact absorb_nil s
  | cons b bs ih =>
    obtain ⟨pending, hread⟩ := memRead_of_pendingExact hs
    obtain ⟨t, ht, -⟩ := absorb_taken [b] hread
    calc absorb ([b] ++ bs) s = absorb bs t := absorb_append bs hs ht
      _ = absorbBytes bs t := ih t (absorb_pendingExact hs ht)
      _ = absorbBytes (b :: bs) s := by rw [absorbBytes, absorbByte_eq_absorb b hs, ht]

/-! ### Chunk by chunk (R90) -/

/-- States that agree once a command completes agree on what UPDATE works on. -/
theorem sameCore_of_complete_eq {s s' : State} (h : complete [] s' = complete [] s) : SameCore s s' := by
  have field {α : Type} (f : State → α) : f (complete [] s') = f (complete [] s) := congrArg f h
  exact ⟨field State.work, field State.sched, field State.round, field State.h, field State.cH, field State.cL,
    field State.buf, field State.pl, field State.free⟩

/-- The body does not depend on the payload channel and the handshake, which completing a command sets. -/
theorem absorb_of_complete_eq {input : List Byte} {s s' u : State} (hs : complete [] s' = complete [] s)
    (h : absorb input s = some u) : ∃ v, absorb input s' = some v ∧ complete [] v = complete [] u := by
  obtain ⟨v, hv, hcore⟩ := absorb_core (sameCore_of_complete_eq hs) h
  have hu := absorb_channels h
  have hv' := absorb_channels hv
  have hchannels : SameChannels (complete [] u) (complete [] v) :=
    ⟨hv'.phase.trans ((congrArg State.phase hs).trans hu.phase.symm),
      hv'.fault.trans ((congrArg State.fault hs).trans hu.fault.symm), rfl, rfl, rfl, rfl,
      hv'.host.trans ((congrArg State.host hs).trans hu.host.symm),
      hv'.received.trans ((congrArg State.received hs).trans hu.received.symm)⟩
  exact ⟨v, hv, State.eq_of_same hchannels
    ⟨hcore.work, hcore.sched, hcore.round, hcore.h, hcore.cH, hcore.cL, hcore.buf, hcore.pl, hcore.free⟩⟩

/-- UPDATE with its payload on DIN ends in the state its body leaves, whatever the handshake was. -/
theorem exec_update_of_complete_eq {input : List Byte} {s s' u : State} (hf : s'.fault = none)
    (hp : s'.phase = .absorbing) (hs : complete [] s' = complete [] s) (h : absorb input s = some u) :
    exec (.update input.length) { s' with din := input } = .next (complete [] u) := by
  obtain ⟨v, hv, hvu⟩ := absorb_of_complete_eq (s' := { s' with din := input }) hs h
  rw [← hvu]
  exact exec_update_din (s := { s' with din := input }) hf hp hv

/-- Settles O26: the body on x and then on y is the body on x ++ y. -/
theorem chunkingInvariance : Obligations.ChunkingInvariance := by
  intro s x y hf hp hs
  obtain ⟨pending, hread⟩ := memRead_of_pendingExact hs
  obtain ⟨t, ht, -⟩ := absorb_taken x hread
  obtain ⟨pending', hread'⟩ := memRead_of_pendingExact (absorb_pendingExact hs ht)
  obtain ⟨u, hu, -⟩ := absorb_taken y hread'
  have hc := absorb_channels ht
  exact ⟨complete [] t, complete [] u, exec_update_of_complete_eq hf hp rfl ht,
    exec_update_of_complete_eq (hc.fault.trans hf) (hc.phase.trans hp) (s := t) rfl hu,
    exec_update_of_complete_eq hf hp rfl ((absorb_append y hs ht).trans hu)⟩

end Sys2Proof.Proofs
end

section
/-! PROOFS. The handshake (spec/10_state.md R29, spec/60_exceptions.md R105 and R119, spec/70_reset_and_hazards.md R121 to
R128): a step for each Host move, then the obligations on reset, on terminal and waiting states and on the response. -/

namespace Sys2Proof.Proofs

open Sys2Proof.Machine

/-! ### The step for each Host move -/

theorem step_no_move {s : State} (hf : s.fault = none) (hh : s.host = []) : step s = idle s := by
  rw [step, hh]
  exact unlessFaulted_none _ hf

theorem step_takeCommand {s : State} {w : Word} {payload : List Byte} {rest : List HostMove} (hf : s.fault = none)
    (hh : s.host = .command w payload :: rest) : step s = takeCommand w payload rest s := by
  rw [step, hh]
  exact unlessFaulted_none _ hf

theorem step_takeData {s : State} {bytes : List Byte} {rest : List HostMove} (hf : s.fault = none)
    (hh : s.host = .data bytes :: rest) : step s = takeData bytes rest s := by
  rw [step, hh]
  exact unlessFaulted_none _ hf

theorem step_takeRead {s : State} {rest : List HostMove} (hf : s.fault = none) (hh : s.host = .read :: rest) :
    step s = takeRead rest s := by
  rw [step, hh]
  exact unlessFaulted_none _ hf

theorem takeData_of_ne_nil {bytes : List Byte} (rest : List HostMove) {s : State} {w : Word} (hne : bytes ≠ [])
    (hc : s.cmd = some w) : takeData bytes rest s = perform w (receive w bytes rest s) := by
  rw [takeData, if_neg (by simpa using hne), hc]

theorem takeData_stray {bytes : List Byte} (rest : List HostMove) {s : State} (hne : bytes ≠ []) (hc : s.cmd = none) :
    takeData bytes rest s = .refused .strayData := by
  rw [takeData, if_neg (by simpa using hne), hc]

/-! ### INIT (R64) -/

/-- Settles O20: INIT overwrites H, cH, cL, pl, the phase and the buffer, so its next state depends on none of them. -/
theorem initInAnyPhase : Obligations.InitInAnyPhase := by
  intro s hf
  have hagain : exec .init (complete [] (initContext s)) = .next (complete [] (initContext s)) :=
    exec_init (s := complete [] (initContext s)) hf
  exact ⟨complete [] (initContext s), exec_init hf, rfl, rfl, rfl, rfl, rfl, hagain,
    fun h cH cL buf pl phase =>
      exec_init (s := { s with h := h, cH := cH, cL := cL, buf := buf, pl := pl, phase := phase }) hf⟩

/-! ### Reset (R29, R121, R125) -/

/-- Settles O40: the values State.reset is defined with. -/
theorem resetState : Obligations.ResetState := ⟨rfl, rfl, rfl, rfl, rfl, Memory.read_nil⟩

/-- Settles O41: the step is a hardware reset, and the move is taken. -/
theorem resetAborts : Obligations.ResetAborts := fun _ _ hh =>
  ⟨_, step_reset hh, rfl, rfl, rfl, rfl, rfl, rfl, rfl, Memory.read_nil, rfl, rfl⟩

/-! ### Terminal states (R105) -/

theorem exec_terminal {s : State} {r : FaultRecord} (hf : s.fault = some r) (i : Instr) :
    exec i s = .fault (.terminal r) := by
  cases i with
  | init | update | final | size => exact unlessFaulted_some _ hf

theorem step_terminal {s : State} {r : FaultRecord} (hf : s.fault = some r) (hh : ∀ rest, s.host ≠ .reset :: rest) :
    step s = .fault (.terminal r) := by
  rw [step]
  split
  · exact absurd ‹_› (hh _)
  all_goals exact unlessFaulted_some _ hf

theorem terminal_of_fault {s : State} {r : FaultRecord} (hf : s.fault = some r) : Terminal r s := by
  refine ⟨exec_terminal hf, fun hh => step_terminal hf (by simp [hh]), fun move rest hh hne => ?_⟩
  exact step_terminal hf (by simp [hh, hne])

/-- Settles O37: raising sets the record, a record makes the state terminal, and a reset clears it. -/
theorem terminalHasNoStep : Obligations.TerminalHasNoStep :=
  ⟨fun s r => ⟨recordFault r s, rfl, faulted_recordFault r s, terminal_of_fault rfl⟩,
    fun _ _ hf => ⟨terminal_of_fault hf, fun _ hh => ⟨_, step_reset hh, rfl⟩⟩⟩

/-! ### Commands accepted and payload awaited (R126, R127) -/

theorem perform_legal {w : Word} {i : Instr} (h : decode w = .ok i) (s : State) : perform w s = exec i s := by
  rw [perform, h]

theorem payloadLength_legal {w : Word} {i : Instr} (h : decode w = .ok i) : payloadLength w = lenOf i := by
  rw [payloadLength, h]

theorem withFetchWord_toNat (s : State) (w : Word) : s.withFetchWord 32 w.toNat = offerWord w s := by
  rw [State.withFetchWord, Nat.mod_eq_of_lt w.isLt, BitVec.ofNat_toNat, BitVec.setWidth_eq]

/-- The word offered with exactly its payload leaves the Host's other moves as they were. -/
theorem accept_offerWord (w : Word) (s : State) :
    accept w (zeros (payloadLength w)) s.host (offerWord w s) =
      { s with fault := none, ready := false, cmd := some w, din := zeros (payloadLength w), dout := [] } := by
  have htake : (zeros (payloadLength w)).take (payloadLength w) = zeros (payloadLength w) :=
    List.take_of_length_le (zeros_length _).le
  have hdrop : (zeros (payloadLength w)).drop (payloadLength w) = [] :=
    List.drop_eq_nil_of_le (zeros_length _).le
  rw [accept, htake, hdrop]
  rfl

/-- Settles O43: the step accepts the word, and performing a legal word is exec of its command. -/
theorem stepRunsDecodedCommand : Obligations.StepRunsDecodedCommand := by
  refine ⟨fun s w payload rest i hf hr hh hw => ?_, fun s w i hw => ?_⟩
  · rw [step_command hf hr hh, perform_legal hw, accept, payloadLength_legal hw]
  · have hstep : step (offerWord w s) = perform w (accept w (zeros (payloadLength w)) s.host (offerWord w s)) :=
      step_command rfl rfl rfl
    rw [withFetchWord_toNat, hstep, accept_offerWord, perform_legal hw, payloadLength_legal hw]

/-- Settles O44: a short UPDATE only sets READY and its word; a delivery performs that word with the bytes received. -/
theorem payloadAwaited : Obligations.PayloadAwaited := by
  refine ⟨fun s len hf hp hlt => ?_, fun s w bytes rest i hf hc hw hne hh => ?_⟩
  · exact ⟨_, execUpdate_eq_next.2 ⟨hf, .inr (.inl ⟨hp, hlt, rfl⟩)⟩, rfl, rfl, rfl, rfl, hf, awaitPayload_context _ s,
      ⟨rfl, rfl, rfl⟩, rfl, rfl⟩
  · rw [step_takeData hf hh, takeData_of_ne_nil rest hne hc, perform_legal hw, receive, payloadLength_legal hw]

/-! ### Stuck and idle states (R119, R127, R128) -/

theorem stuck_of_cmd {s : State} {w : Word} (hc : s.cmd = some w) : stuck s = .fault .stuckPayload := by
  rw [stuck, hc]

theorem stuck_of_no_cmd {s : State} (hc : s.cmd = none) : stuck s = .fault .stuckResponse := by
  rw [stuck, hc]

/-- With READY = 0 a Host that offers nothing or a command word leaves the engine stuck. -/
theorem step_stuck {s : State} (hf : s.fault = none) (hr : s.ready = false)
    (hh : s.host = [] ∨ ∃ w p rest, s.host = .command w p :: rest) : step s = stuck s := by
  obtain hnone | ⟨w, p, rest, hcommand⟩ := hh
  · rw [step_no_move hf hnone, idle, if_neg (by simp [hr])]
  · rw [step_takeCommand hf hcommand, takeCommand, if_neg (by simp [hr])]

/-- Settles O45: by whether a command is in progress. -/
theorem stuckWithoutHost : Obligations.StuckWithoutHost := by
  refine fun s hf hr => ⟨fun w hc hd => ⟨fun hh => ?_, fun w' p rest hh => ?_, fun rest hh => ?_⟩,
    fun hc => ⟨fun hh => ?_, fun w' p rest hh => ?_, fun bytes rest hne hh => ?_⟩⟩
  · exact (step_stuck hf hr (.inl hh)).trans (stuck_of_cmd hc)
  · exact (step_stuck hf hr (.inr ⟨w', p, rest, hh⟩)).trans (stuck_of_cmd hc)
  · rw [step_takeRead hf hh, takeRead, hd]
  · exact (step_stuck hf hr (.inl hh)).trans (stuck_of_no_cmd hc)
  · exact (step_stuck hf hr (.inr ⟨w', p, rest, hh⟩)).trans (stuck_of_no_cmd hc)
  · exact (step_takeData hf hh).trans (takeData_stray rest hne hc)

/-- Settles O47: idling is the identity. -/
theorem idleKeepsState : Obligations.IdleKeepsState := by
  intro s hf hr hh
  rw [step_no_move hf hh, idle, if_pos hr]

/-! ### The response drained (R128) -/

/-- The Host has read the first bytes, the others are left on DOUT, and its next moves are those of rest. -/
def afterReads (first left : List Byte) (rest : List HostMove) (s : State) : State :=
  { s with dout := left, received := s.received ++ first, ready := left.isEmpty, host := rest }

/-- One read takes the first byte; READY returns if it was the last. -/
theorem step_read {s : State} {b : Byte} {bs : List Byte} {rest : List HostMove} (hf : s.fault = none)
    (hc : s.cmd = none) (hd : s.dout = b :: bs) (hh : s.host = .read :: rest) :
    step s = .next (afterReads [b] bs rest s) := by
  have hready : (bs.isEmpty && s.cmd.isNone) = bs.isEmpty := by rw [hc, Option.isNone_none, Bool.and_true]
  rw [step_takeRead hf hh, takeRead, hd]
  simp only [hready, afterReads]

theorem afterReads_afterReads (b : Byte) (bs : List Byte) (moves rest : List HostMove) (s : State) :
    afterReads bs [] rest (afterReads [b] bs moves s) = afterReads (b :: bs) [] rest s := by
  simp only [afterReads, List.append_assoc, List.singleton_append]

/-- As many reads as there are bytes on DOUT empty it. -/
theorem runSteps_reads (bytes : List Byte) {s : State} {rest : List HostMove} (hf : s.fault = none) (hc : s.cmd = none)
    (hd : s.dout = bytes) (hr : s.ready = bytes.isEmpty) (hh : s.host = List.replicate bytes.length .read ++ rest) :
    runSteps bytes.length s = .next (afterReads bytes [] rest s) := by
  induction bytes generalizing s with
  | nil =>
    have hsame : afterReads [] [] rest s = s :=
      State.ext rfl rfl rfl rfl rfl rfl rfl rfl rfl rfl hr.symm rfl rfl hd.symm hh.symm (List.append_nil _) rfl
    rw [hsame]
    rfl
  | cons b bs ih =>
    have hstep := step_read hf hc hd hh
    rw [List.length_cons, runSteps, hstep, ← afterReads_afterReads]
    exact ih (s := afterReads [b] bs _ s) hf hc rfl rfl rfl

/-- Settles O46: a response that is not empty keeps READY at 0 until its last byte is read. -/
theorem responseDrained : Obligations.ResponseDrained := by
  intro s rest hf hc hr hne hh
  exact runSteps_reads s.dout hf hc rfl (hr.trans (List.isEmpty_eq_false_iff.2 hne).symm) hh

end Sys2Proof.Proofs
end

section
/-! PROOFS. The Host's programs (spec/30_encoding.md R60 to R62): the slices of update*, and the worked texts. -/

namespace Sys2Proof.Proofs

open Sys2Proof.Machine

/-! ### The slices of update* (R61) -/

/-- A payload of at most n bytes is one slice; a longer one has a slice of n bytes and those of the rest. -/
theorem slices_of_le {n k : Nat} {bs : List Byte} (h : bs.length ≤ n) : slices n (k + 1) bs = [bs] := by
  rw [slices, if_pos h]

theorem slices_of_gt {n k : Nat} {bs : List Byte} (h : n < bs.length) :
    slices n (k + 1) bs = bs.take n :: slices n k (bs.drop n) := by
  rw [slices, if_neg (Nat.not_le.2 h)]

/-- Slices of n bytes: joined they are the payload, all but the last are full, and none is empty unless the payload is. -/
structure Slicing (n : Nat) (payload : List Byte) (xs : List (List Byte)) : Prop where
  joined : xs.flatten = payload
  bounded : ∀ x ∈ xs, x.length ≤ n
  full : ∀ x ∈ xs.dropLast, x.length = n
  nonempty : payload ≠ [] → ∀ x ∈ xs, 1 ≤ x.length

/-- The slicing has enough slices when their number may exceed the payload's length. -/
theorem slices_slicing {n k : Nat} {bs : List Byte} (hn : 0 < n) (hk : bs.length < k) :
    Slicing n bs (slices n k bs) := by
  induction k generalizing bs with
  | zero => exact absurd hk (Nat.not_lt_zero _)
  | succ k ih =>
    by_cases h : bs.length ≤ n
    · rw [slices_of_le h]
      exact ⟨by simp, by simpa using h, by simp, fun hne => by simpa [Nat.one_le_iff_ne_zero] using hne⟩
    · have hgt := Nat.not_le.1 h
      have hfull : (bs.take n).length = n := List.length_take_of_le hgt.le
      have hlen : (bs.drop n).length = bs.length - n := List.length_drop
      have hrest : bs.drop n ≠ [] := List.ne_nil_of_length_pos (by omega)
      obtain ⟨hjoined, hbounded, hslices, hnonempty⟩ := ih (bs := bs.drop n) (by omega)
      have hne : slices n k (bs.drop n) ≠ [] := fun hnil => hrest (by rw [← hjoined, hnil, List.flatten_nil])
      rw [slices_of_gt hgt]
      refine ⟨?_, ?_, ?_, fun _ => ?_⟩
      · rw [List.flatten_cons, hjoined, List.take_append_drop]
      · exact List.forall_mem_cons.2 ⟨hfull.le, hbounded⟩
      · rw [List.dropLast_cons_of_ne_nil hne]
        exact List.forall_mem_cons.2 ⟨hfull, hslices⟩
      · exact List.forall_mem_cons.2 ⟨hfull.symm ▸ hn, hnonempty hrest⟩

/-- Settles O56: the slices of 2^24 − 1 bytes each. -/
theorem updateSlicesCoverPayload : Obligations.UpdateSlicesCoverPayload := by
  intro payload
  obtain ⟨hjoined, hbounded, hfull, hnonempty⟩ : Slicing (2 ^ 24 - 1) payload (updateSlices payload) :=
    slices_slicing (by decide) (Nat.lt_succ_self _)
  exact ⟨hjoined, hbounded, hfull, fun hlong => hnonempty (List.ne_nil_of_length_pos (Nat.zero_lt_of_lt hlong))⟩

/-! ### Worked texts (R61, R62) -/

/-- Settles O57: each text assembled by evaluation. -/
theorem assembledText : Obligations.AssembledText := by
  unfold Obligations.AssembledText
  decide

end Sys2Proof.Proofs
end
